-- ==== Sys2Proof/Word.lean ====
section
/-! DEFINITION. The word types of the core (R6, R7: every value is unsigned, of the width stated for it). -/

namespace Sys2Proof

/-- A register, timer or memory byte (R20, R28, R33). -/
abbrev Byte := BitVec 8

/-- An opcode, or the contents of PC, I or a stack entry (R22, R24, R26, R70). -/
abbrev Word := BitVec 16

/-- A 12-bit address, the field `nnn` (R50, R71). -/
abbrev Addr := BitVec 12

/-- A 4-bit field: a register index x or y, a sub-opcode or row count p, a key index (R20, R30, R71). -/
abbrev Nibble := BitVec 4

/-- One colour value of the rendered frame (R218). -/
abbrev Colour := BitVec 32

end Sys2Proof
end

