-- ==== Sys2Proof/Syntax.lean ====
section
/-! DEFINITION. The instructions: one constructor per row of the dispatch table (R77), in its order, and the fallback (R75). -/

namespace Sys2Proof

/-- The 34 instructions and the no-op of every unmatched opcode. -/
inductive Instr where
  /-- 00E0 (R150) -/
  | cls
  /-- 00EE (R100) -/
  | ret
  /-- 1nnn (R101) -/
  | jp (nnn : Addr)
  /-- Bnnn (R102) -/
  | jpV0 (nnn : Addr)
  /-- 2nnn (R103) -/
  | call (nnn : Addr)
  /-- Fx0A (R175) -/
  | ldVxK (x : Nibble)
  /-- 6xkk (R122) -/
  | ldImm (x : Nibble) (kk : Byte)
  /-- 8xy0 (R123) -/
  | ldReg (x y : Nibble)
  /-- 7xkk (R124) -/
  | addImm (x : Nibble) (kk : Byte)
  /-- 8xy1 (R125) -/
  | or (x y : Nibble)
  /-- 8xy2 (R126) -/
  | and (x y : Nibble)
  /-- 8xy3 (R127) -/
  | xor (x y : Nibble)
  /-- 8xy4 (R128) -/
  | addReg (x y : Nibble)
  /-- 8xy5 (R129) -/
  | sub (x y : Nibble)
  /-- 8xy7 (R130) -/
  | subn (x y : Nibble)
  /-- 8xy6 (R131) -/
  | shr (x y : Nibble)
  /-- 8xyE (R132) -/
  | shl (x y : Nibble)
  /-- Cxkk (R133) -/
  | rnd (x : Nibble) (kk : Byte)
  /-- Dxyn (R151) -/
  | drw (x y n : Nibble)
  /-- Fx29 (R154) -/
  | ldF (x : Nibble)
  /-- Fx07 (R170) -/
  | ldVxDt (x : Nibble)
  /-- Fx15 (R171) -/
  | ldDtVx (x : Nibble)
  /-- Fx18 (R172) -/
  | ldStVx (x : Nibble)
  /-- Annn (R190) -/
  | ldI (nnn : Addr)
  /-- Fx1E (R191) -/
  | addI (x : Nibble)
  /-- 3xkk (R105) -/
  | seImm (x : Nibble) (kk : Byte)
  /-- 4xkk (R106) -/
  | sneImm (x : Nibble) (kk : Byte)
  /-- 5xy0 (R107) -/
  | seReg (x y : Nibble)
  /-- 9xy0 (R108) -/
  | sneReg (x y : Nibble)
  /-- Ex9E (R173) -/
  | skp (x : Nibble)
  /-- ExA1 (R174) -/
  | sknp (x : Nibble)
  /-- Fx33 (R192) -/
  | bcd (x : Nibble)
  /-- Fx55 (R193) -/
  | dump (x : Nibble)
  /-- Fx65 (R194) -/
  | load (x : Nibble)
  /-- Every opcode that matches no row, with the opcode itself (R75). -/
  | nopUnmatched (w : Word)
  deriving DecidableEq, Repr

end Sys2Proof
end

