-- ==== Sys2Proof/WellFormed.lean ====
section
/-! DEFINITION. Which terms of `Instr` are instructions of the core.
Every operand field has exactly the width of its encoding, so the one thing left to check is that
`nopUnmatched` carries an opcode of R75's table. -/

namespace Sys2Proof

/-- R75's table of the unmatched encodings, class by class, in the numbers of the table itself.
It is written from that table alone, not from the decoder. -/
def isUnmatched (w : Word) : Bool :=
  let op := w.toNat
  let p := op % 16
  let kk := op % 256
  let nnn := op % 4096
  match op / 4096 with
  | 0x0 => nnn != 0x0E0 && nnn != 0x0EE
  | 0x5 => p != 0
  | 0x8 => p ∈ [0x8, 0x9, 0xA, 0xB, 0xC, 0xD, 0xF]
  | 0x9 => p != 0
  | 0xE => kk != 0x9E && kk != 0xA1
  | 0xF => kk ∉ [0x07, 0x0A, 0x15, 0x18, 0x1E, 0x29, 0x33, 0x55, 0x65]
  | _ => false

/-- A well-formed instruction (R2, R75). -/
def Instr.wf : Instr → Bool
  | .nopUnmatched w => isUnmatched w
  | .cls | .ret | .jp _ | .jpV0 _ | .call _ | .ldVxK _ | .ldImm _ _ | .ldReg _ _ | .addImm _ _
  | .or _ _ | .and _ _ | .xor _ _ | .addReg _ _ | .sub _ _ | .subn _ _ | .shr _ _ | .shl _ _
  | .rnd _ _ | .drw _ _ _ | .ldF _ | .ldVxDt _ | .ldDtVx _ | .ldStVx _ | .ldI _ | .addI _
  | .seImm _ _ | .sneImm _ _ | .seReg _ _ | .sneReg _ _ | .skp _ | .sknp _ | .bcd _ | .dump _
  | .load _ => true

end Sys2Proof
end

