-- ==== Sys2Proof/Decode.lean ====
section
/-! DEFINITION. Field extraction (R71), the dispatch table (R77), the decoder, and the encoder (R72). -/

namespace Sys2Proof

/-- The six fields of an opcode (R71) and the opcode itself. -/
structure Fields where
  u   : Nibble
  x   : Nibble
  y   : Nibble
  p   : Nibble
  kk  : Byte
  nnn : Addr
  op  : Word
  deriving DecidableEq, Repr

/-- The field extraction of R71. -/
def fieldsOf (op : Word) : Fields where
  u   := op.extractLsb' 12 4
  x   := op.extractLsb' 8 4
  y   := op.extractLsb' 4 4
  p   := op.extractLsb' 0 4
  kk  := op.extractLsb' 0 8
  nnn := op.extractLsb' 0 12
  op  := op

/-- What a row of the dispatch table tests beside the class `u` (R77). -/
inductive SubTest where
  | any
  | nnnIs (v : Addr)
  | pIs (v : Nibble)
  | kkIs (v : Byte)
  deriving DecidableEq, Repr

/-- Does the sub-opcode test hold of the fields? -/
def SubTest.holds (t : SubTest) (f : Fields) : Bool :=
  match t with
  | .any => true
  | .nnnIs v => f.nnn == v
  | .pIs v => f.p == v
  | .kkIs v => f.kk == v

/-- One predicate and action pair of the dispatch table (R75, R77); the action is named by the instruction. -/
structure Row where
  u     : Nibble
  sub   : SubTest
  instr : Fields → Instr

/-- Does the row's predicate hold of the fields? -/
def Row.holds (r : Row) (f : Fields) : Bool := f.u == r.u && r.sub.holds f

/-- The dispatch table of R77, in its order. -/
def dispatchTable : List Row :=
  [ ⟨0x0, .nnnIs 0x0E0, fun _ => .cls⟩,
    ⟨0x0, .nnnIs 0x0EE, fun _ => .ret⟩,
    ⟨0x1, .any,         fun f => .jp f.nnn⟩,
    ⟨0xB, .any,         fun f => .jpV0 f.nnn⟩,
    ⟨0x2, .any,         fun f => .call f.nnn⟩,
    ⟨0xF, .kkIs 0x0A,   fun f => .ldVxK f.x⟩,
    ⟨0x6, .any,         fun f => .ldImm f.x f.kk⟩,
    ⟨0x8, .pIs 0x0,     fun f => .ldReg f.x f.y⟩,
    ⟨0x7, .any,         fun f => .addImm f.x f.kk⟩,
    ⟨0x8, .pIs 0x1,     fun f => .or f.x f.y⟩,
    ⟨0x8, .pIs 0x2,     fun f => .and f.x f.y⟩,
    ⟨0x8, .pIs 0x3,     fun f => .xor f.x f.y⟩,
    ⟨0x8, .pIs 0x4,     fun f => .addReg f.x f.y⟩,
    ⟨0x8, .pIs 0x5,     fun f => .sub f.x f.y⟩,
    ⟨0x8, .pIs 0x7,     fun f => .subn f.x f.y⟩,
    ⟨0x8, .pIs 0x6,     fun f => .shr f.x f.y⟩,
    ⟨0x8, .pIs 0xE,     fun f => .shl f.x f.y⟩ ] ++
  [ ⟨0xC, .any,         fun f => .rnd f.x f.kk⟩,
    ⟨0xD, .any,         fun f => .drw f.x f.y f.p⟩,
    ⟨0xF, .kkIs 0x29,   fun f => .ldF f.x⟩,
    ⟨0xF, .kkIs 0x07,   fun f => .ldVxDt f.x⟩,
    ⟨0xF, .kkIs 0x15,   fun f => .ldDtVx f.x⟩,
    ⟨0xF, .kkIs 0x18,   fun f => .ldStVx f.x⟩,
    ⟨0xA, .any,         fun f => .ldI f.nnn⟩,
    ⟨0xF, .kkIs 0x1E,   fun f => .addI f.x⟩,
    ⟨0x3, .any,         fun f => .seImm f.x f.kk⟩,
    ⟨0x4, .any,         fun f => .sneImm f.x f.kk⟩,
    ⟨0x5, .pIs 0x0,     fun f => .seReg f.x f.y⟩,
    ⟨0x9, .pIs 0x0,     fun f => .sneReg f.x f.y⟩,
    ⟨0xE, .kkIs 0x9E,   fun f => .skp f.x⟩,
    ⟨0xE, .kkIs 0xA1,   fun f => .sknp f.x⟩,
    ⟨0xF, .kkIs 0x33,   fun f => .bcd f.x⟩,
    ⟨0xF, .kkIs 0x55,   fun f => .dump f.x⟩,
    ⟨0xF, .kkIs 0x65,   fun f => .load f.x⟩ ]

/-- The instruction of the first row whose predicate holds, the no-op where none does (R73, R75). -/
def dispatch (rows : List Row) (f : Fields) : Instr :=
  match rows with
  | [] => .nopUnmatched f.op
  | r :: rest => if r.holds f then r.instr f else dispatch rest f

/-- The decoder: total on the 65536 opcodes, because an unmatched opcode is itself an instruction (R75, R80). -/
def decodeWord (op : Word) : Instr := dispatch dispatchTable (fieldsOf op)

/-- Why a list of bytes holds no instruction. -/
inductive DecodeError where
  /-- Fewer than the two bytes of an instruction (R70). -/
  | truncated
  deriving DecidableEq, Repr

/-- Two bytes as an opcode, the high byte first (R53). -/
def wordOfBytes (hi lo : Byte) : Word := hi ++ lo

/-- The two bytes of an opcode as memory holds them, the high byte at the lower address (R53, R70). -/
def bytesOfWord (w : Word) : Byte × Byte := (w.extractLsb' 8 8, w.extractLsb' 0 8)

/-- The decoder on bytes: the instruction of the first two, and the rest (R53, R70). -/
def decodeBytes : List Byte → Except DecodeError (Instr × List Byte)
  | hi :: lo :: rest => .ok (decodeWord (wordOfBytes hi lo), rest)
  | [_] => .error .truncated
  | [] => .error .truncated

/-- The opcode `nbits w` numbers as the opcode table does: bit 0 is the least significant bit of the one
16-bit word, and bits from `nbits` up are 0. -/
def tableWord (nbits w : Nat) : Word := BitVec.ofNat 16 (w % 2 ^ nbits)

/-- What the decoder reads from an instruction whose table bits are `w`: the word is laid out as memory holds
it and given to the byte decoder.
No instruction is longer than 16 bits (R70), so a longer row has none. -/
def decodeTableWord (nbits w : Nat) : Option Instr :=
  if 16 < nbits then none
  else
    let b := bytesOfWord (tableWord nbits w)
    match decodeBytes [b.1, b.2] with
    | .ok (i, _) => some i
    | .error _ => none

/-! ### The encoder, from the formats of R72 -/

/-- Format `nnn`: `uuuu nnnn nnnn nnnn`. -/
def encNnn (u : Nibble) (nnn : Addr) : Word := u ++ nnn

/-- Formats `xkk` and `x`: `uuuu xxxx kkkk kkkk`. -/
def encXkk (u x : Nibble) (kk : Byte) : Word := u ++ x ++ kk

/-- Formats `xyp` and `xyn`: `uuuu xxxx yyyy pppp`. -/
def encXyp (u x y p : Nibble) : Word := u ++ x ++ y ++ p

/-- The opcode of an instruction. -/
def encode : Instr → Word
  | .cls => 0x00E0
  | .ret => 0x00EE
  | .jp nnn => encNnn 0x1 nnn
  | .jpV0 nnn => encNnn 0xB nnn
  | .call nnn => encNnn 0x2 nnn
  | .ldVxK x => encXkk 0xF x 0x0A
  | .ldImm x kk => encXkk 0x6 x kk
  | .ldReg x y => encXyp 0x8 x y 0x0
  | .addImm x kk => encXkk 0x7 x kk
  | .or x y => encXyp 0x8 x y 0x1
  | .and x y => encXyp 0x8 x y 0x2
  | .xor x y => encXyp 0x8 x y 0x3
  | .addReg x y => encXyp 0x8 x y 0x4
  | .sub x y => encXyp 0x8 x y 0x5
  | .subn x y => encXyp 0x8 x y 0x7
  | .shr x y => encXyp 0x8 x y 0x6
  | .shl x y => encXyp 0x8 x y 0xE
  | .rnd x kk => encXkk 0xC x kk
  | .drw x y n => encXyp 0xD x y n
  | .ldF x => encXkk 0xF x 0x29
  | .ldVxDt x => encXkk 0xF x 0x07
  | .ldDtVx x => encXkk 0xF x 0x15
  | .ldStVx x => encXkk 0xF x 0x18
  | .ldI nnn => encNnn 0xA nnn
  | .addI x => encXkk 0xF x 0x1E
  | .seImm x kk => encXkk 0x3 x kk
  | .sneImm x kk => encXkk 0x4 x kk
  | .seReg x y => encXyp 0x5 x y 0x0
  | .sneReg x y => encXyp 0x9 x y 0x0
  | .skp x => encXkk 0xE x 0x9E
  | .sknp x => encXkk 0xE x 0xA1
  | .bcd x => encXkk 0xF x 0x33
  | .dump x => encXkk 0xF x 0x55
  | .load x => encXkk 0xF x 0x65
  | .nopUnmatched w => w

/-- The bytes of an instruction as memory holds them (R53, R70). -/
def encodeBytes (i : Instr) : List Byte :=
  let b := bytesOfWord (encode i)
  [b.1, b.2]

end Sys2Proof
end

