-- ==== Sys2Proof/Machine/Flags.lean ====
section
/-! DEFINITION. Every flag computation and the result it goes with (R120, R128 to R132, R191).
Each gives the 8-bit result r and the flag f of R121's step 2, from the exact sum or comparison. -/

namespace Sys2Proof.Machine.Flags

/-- A result and its flag. -/
structure Result where
  r : Byte
  f : Bool
  deriving DecidableEq, Repr

/-- A flag as VF holds it. -/
def toByte (f : Bool) : Byte := if f then 1 else 0

/-- The 9-bit sum of 8xy4: the low 8 bits and bit 8 (R128). -/
def add (a b : Byte) : Result :=
  let sum := a.toNat + b.toNat
  ⟨BitVec.ofNat 8 sum, sum.testBit 8⟩

/-- `(a - b) mod 256`, and NOT borrow: is a at least b? (R129; R130 with the operands exchanged). -/
def sub (a b : Byte) : Result := ⟨a - b, decide (b.toNat ≤ a.toNat)⟩

/-- `b >> 1`, and the bit shifted out, bit 0 (R131). -/
def shr (b : Byte) : Result := ⟨b >>> 1, b.getLsbD 0⟩

/-- `(b << 1) mod 256`, and the bit shifted out, bit 7 (R132). -/
def shl (b : Byte) : Result := ⟨b <<< 1, b.getLsbD 7⟩

/-- The 13-bit sum of Fx1E: I is masked to 12 bits before it; the low 12 bits and bit 12 (R191). -/
def addIndex (i : Word) (b : Byte) : Word × Bool :=
  let sum := (i &&& 0x0FFF).toNat + b.toNat
  (BitVec.ofNat 16 sum &&& 0x0FFF, sum.testBit 12)

end Sys2Proof.Machine.Flags
end

