-- ==== Sys2Proof/Config.lean ====
section
/-! DEFINITION. The parameters of the core (R5) with the defaults the spec chose, and the one free value. -/

namespace Sys2Proof.Config

/-- What 2nnn pushes: the parameter `CALL_LINK_MODE` (R5, R103, D4). -/
inductive CallLinkMode where
  /-- The address of the call plus 2, the default. -/
  | returnAddress
  /-- The constant 0x000C, the source "as written". -/
  | capacityConstant
  deriving DecidableEq, Repr

/-- What an opcode that matches no row does: the parameter `UNLISTED_POLICY` (R5, R76, D13). -/
inductive UnlistedPolicy where
  /-- Nothing but the fetch advance, the default and the source's rule (R75). -/
  | nop
  /-- The step is refused. -/
  | refuse
  deriving DecidableEq, Repr

/-- The number of font bytes: 16 glyphs of 5 bytes (R34, R153). -/
abbrev fontBytes : Nat := 80

/-- The parameters of R5 that a rule of the core reads.
`PC_RESET` is `loadOrigin` (R242); `IPF` is read by no rule of the core (R220). -/
structure Params where
  /-- `STACK_ENTRY_WIDTH`, in bits: what a stack entry keeps of a pushed value (R26, D3, log 27). -/
  stackEntryWidth : Nat
  /-- The greatest value of the `SP` range, which starts at 0: SP counts mod `spMax + 1` (R27, D2, log 27). -/
  spMax : Nat
  /-- `SP_RESET` (R243, D2). -/
  spReset : Nat
  /-- `LOAD_ORIGIN`: where the program image goes, and PC at reset (R60, R242). -/
  loadOrigin : Addr
  /-- `FONT_BASE`: the address of glyph 0 (R59, R154). -/
  fontBase : Addr
  /-- `FONT_DATA`: the glyph bytes written at reset (R153). -/
  fontData : Vector Byte fontBytes
  /-- `CALL_LINK_MODE` (R103). -/
  callLinkMode : CallLinkMode
  /-- `UNLISTED_POLICY` (R76). -/
  unlistedPolicy : UnlistedPolicy
  deriving DecidableEq, Repr

/-- The constraint R5 and R59 put on the parameters, `FONT_BASE + 80 <= LOAD_ORIGIN`, and the one the meaning of
`SP_RESET` puts on them: it is in the `SP` range (log 23). -/
abbrev Params.wf (p : Params) : Prop :=
  p.fontBase.toNat + fontBytes ≤ p.loadOrigin.toNat ∧ p.spReset ≤ p.spMax

/-- The default `FONT_DATA`: the table of R153, glyphs 0 to F, each row by row from the top. -/
def standardFont : Vector Byte fontBytes :=
  #v[0xF0, 0x90, 0x90, 0x90, 0xF0,  0x20, 0x60, 0x20, 0x20, 0x70,
     0xF0, 0x10, 0xF0, 0x80, 0xF0,  0xF0, 0x10, 0xF0, 0x10, 0xF0,
     0x90, 0x90, 0xF0, 0x10, 0x10,  0xF0, 0x80, 0xF0, 0x10, 0xF0,
     0xF0, 0x80, 0xF0, 0x90, 0xF0,  0xF0, 0x10, 0x20, 0x40, 0x40,
     0xF0, 0x90, 0xF0, 0x90, 0xF0,  0xF0, 0x90, 0xF0, 0x10, 0xF0,
     0xF0, 0x90, 0xF0, 0x90, 0x90,  0xE0, 0x90, 0xE0, 0x90, 0xE0,
     0xF0, 0x80, 0x80, 0x80, 0xF0,  0xE0, 0x90, 0x90, 0x90, 0xE0,
     0xF0, 0x80, 0xF0, 0x80, 0xF0,  0xF0, 0x80, 0xF0, 0x80, 0x80]

/-- The default parameters of R5. -/
def defaults : Params where
  stackEntryWidth := 16
  spMax := 11
  spReset := 11
  loadOrigin := 0x200
  fontBase := 0x000
  fontData := standardFont
  callLinkMode := .returnAddress
  unlistedPolicy := .nop

/-- The free byte of the n-th Cxkk executed: `RandomByte()` (R133, R35, D12).
It has no body, so no claim can rest on its value. -/
opaque randomByte : Nat → Byte

/-- `IPF`, instructions per 60 Hz frame: OPEN in R5, so it has no body (R220, D18).
Only the host's pacing reads it. -/
opaque ipf : Nat

end Sys2Proof.Config
end

