-- ==== Sys2Proof/Machine/State.lean ====
section
/-! DEFINITION. The machine's state (`10_state.md`), the reasons a step can stop, and the state after reset (R240 to R245). -/

namespace Sys2Proof.Machine

/-- The faults of a step: none, so this type has no constructor.
R210: "The core raises no exception. No instruction, operand value, address or encoding causes a fault, a
trap, a halt or an error report". -/
inductive Fault where
  deriving DecidableEq, Repr

/-- Why a step is refused. -/
inductive Refusal where
  /-- An instruction without a meaning; raised by `exec`'s refused arms, of which there is none. Safe. -/
  | notModelled (mnemonic : String)
  /-- An opcode that matches no row, under `UNLISTED_POLICY = refuse` only; raised by `execNopUnmatched` (R76).
  Safe: the spec says claims about such a run are unprovable. -/
  | unlistedOpcode (w : Word)
  deriving DecidableEq, Repr

/-- The display buffer as R32 packs it: 256 bytes, row-major, 8 pixels to the byte. -/
abbrev DispBuf := Vector Byte 256

/-- Memory as the listed (address, byte) pairs, in the canonical form of `Memory.wf`.
An unlisted address reads as its reset contents (`Memory.background`). -/
abbrev Memory := List Host.Cell

/-- The machine's state.
All but `draws` and `params` is the spec's; those two are the model's own (log 1 and 2). -/
structure State where
  /-- V0 to VF (R20); VF is also the flag (R21). -/
  v      : Vector Byte 16
  /-- The program counter (R22). -/
  pc     : Word
  /-- The index register (R24). -/
  i      : Word
  /-- The call stack (R26); an entry is below `2 ^ STACK_ENTRY_WIDTH` (`State.Inv`). -/
  stack  : Vector Word 12
  /-- The stack pointer, in the `SP` range, 0 to 11 by default (R27, `State.Inv`). -/
  sp     : Nat
  /-- The delay timer (R28). -/
  dt     : Byte
  /-- The sound timer (R29). -/
  st     : Byte
  /-- The key-state bits (R30). -/
  keys   : Vector Bool 16
  /-- The waiting-key flag (R31). -/
  wk     : Byte
  /-- The display buffer (R32). -/
  disp   : DispBuf
  /-- Memory (R33), the font included (R34). -/
  mem    : Memory
  /-- The model's own: how many free bytes Cxkk has taken (R35, log 2). -/
  draws  : Nat
  /-- The model's own: the parameters of R5, which no step and no event changes (R36, log 1). -/
  params : Config.Params
  deriving DecidableEq, Repr

/-- The state after reset for given parameters: R241 (memory), R242 (PC), R243 (stack), R244 (the rest). -/
def State.resetWith (p : Config.Params) : State where
  v      := Vector.replicate 16 0
  pc     := p.loadOrigin.setWidth 16
  i      := 0
  stack  := Vector.replicate 12 0
  sp     := p.spReset
  dt     := 0
  st     := 0
  keys   := Vector.replicate 16 false
  wk     := 0
  disp   := Vector.replicate 256 0
  mem    := []
  draws  := 0
  params := p

/-- The state after reset, with the default parameters of R5. -/
def State.reset : State := State.resetWith Config.defaults

end Sys2Proof.Machine
end

