-- ==== Sys2Proof/Machine/Memory.lean ====
section
/-! DEFINITION. The one memory: 4096 bytes, every address taken mod 4096 (R50, R51, R62), kept in canonical form. -/

namespace Sys2Proof.Machine.Memory

/-- `MEM_SIZE` (R5). -/
abbrev size : Nat := 4096

/-- What an unlisted address reads as: its contents after reset (R241), which are the font byte at
`FONT_BASE` to `FONT_BASE + 79` and 0 elsewhere. -/
def background (p : Config.Params) (a : Nat) : Byte :=
  let k := (a + size - p.fontBase.toNat) % size
  if h : k < Config.fontBytes then p.fontData[k] else 0

/-- The byte listed at an address. -/
def lookup : Memory → Nat → Option Byte
  | [], _ => none
  | (b, v) :: rest, a => if b = a then some v else lookup rest a

/-- The list without the entries of one address. -/
def erase : Memory → Nat → Memory
  | [], _ => []
  | (b, v) :: rest, a => if b = a then erase rest a else (b, v) :: erase rest a

/-- The list with an entry put before the first one of a higher address. -/
def insert : Memory → Nat → Byte → Memory
  | [], a, x => [(a, x)]
  | (b, v) :: rest, a, x => if a < b then (a, x) :: (b, v) :: rest else (b, v) :: insert rest a x

/-- `MemRead(addr, 1)` (R51). -/
def read (p : Config.Params) (m : Memory) (addr : Nat) : Byte :=
  (lookup m (addr % size)).getD (background p (addr % size))

/-- `MemWrite(addr, 1, x)` (R51).
Writing what the unlisted address reads as removes the entry. -/
def write (p : Config.Params) (m : Memory) (addr : Nat) (x : Byte) : Memory :=
  if x = background p (addr % size) then erase m (addr % size)
  else insert (erase m (addr % size)) (addr % size) x

/-- The canonical form: addresses strictly rising and inside the address space, and no entry equal to what
its address reads as unlisted. -/
abbrev wf (p : Config.Params) (m : Memory) : Prop :=
  m.Pairwise (fun c d => c.1 < d.1) ∧ ∀ c ∈ m, c.1 < size ∧ c.2 ≠ background p c.1

end Sys2Proof.Machine.Memory
end

