-- ==== Sys2Proof/Machine/Screen.lean ====
section
/-! DEFINITION. The display buffer: pixels of the packed form (R32), and the exclusive-or blit of Dxyn (R151). -/

namespace Sys2Proof.Machine.Screen

/-- A row and a column of the display: `DISP_H` is 32 and `DISP_W` is 64 (R5, R32). -/
abbrev Row := Fin 32
abbrev Col := Fin 64

/-- The byte that holds pixel (row, col): `(row * 64 + col) / 8` (R32). -/
def byteIx (row : Row) (col : Col) : Fin 256 :=
  ⟨(row.val * 64 + col.val) / 8, by omega⟩

/-- The bit of that byte: `7 - (col mod 8)` (R32, D8). -/
def bitIx (col : Col) : Nat := 7 - col.val % 8

/-- `Disp[row][col]`. -/
def pixel (d : DispBuf) (row : Row) (col : Col) : Bool :=
  d[byteIx row col].getLsbD (bitIx col)

/-- `Disp[row][col] <- Disp[row][col] ^ 1`. -/
def flip (d : DispBuf) (row : Row) (col : Col) : DispBuf :=
  d.set (byteIx row col) (d[byteIx row col] ^^^ BitVec.twoPow 8 (bitIx col))

/-- All pixels 0 (R150). -/
def blank : DispBuf := Vector.replicate 256 0

/-- A coordinate wrapped on its axis (R151). -/
def wrapRow (n : Nat) : Row := ⟨n % 32, Nat.mod_lt _ (by decide)⟩
def wrapCol (n : Nat) : Col := ⟨n % 64, Nat.mod_lt _ (by decide)⟩

/-- A draw in progress: the display and `hit` (R151). -/
structure Blit where
  disp : DispBuf
  hit  : Bool
  deriving DecidableEq, Repr

/-- One set bit of the sprite: `if Disp[py][px] = 1: hit <- 1`, then the flip (R151). -/
def plot (b : Blit) (py : Row) (px : Col) : Blit :=
  ⟨flip b.disp py px, b.hit || pixel b.disp py px⟩

/-- Columns 0 to `n - 1` of one sprite row; column 0 is the most significant bit of its byte (R151, D7). -/
def drawCols (bits : Byte) (cx : Nat) (py : Row) : Nat → Blit → Blit
  | 0, b => b
  | c + 1, b =>
    let b' := drawCols bits cx py c b
    if bits.getLsbD (7 - c) then plot b' py (wrapCol (cx + c)) else b'

/-- Rows 0 to `n - 1` of a sprite whose row r is the byte `sprite r` (R151). -/
def drawRows (sprite : Nat → Byte) (cx cy : Nat) : Nat → Blit → Blit
  | 0, b => b
  | r + 1, b => drawCols (sprite r) cx (wrapRow (cy + r)) 8 (drawRows sprite cx cy r b)

end Sys2Proof.Machine.Screen
end

