-- ==== Sys2Proof/Machine/Operands.lean ====
section
/-! DEFINITION. The operand forms: register operands, immediates, and memory through an address (R8, R24, R74). -/

namespace Sys2Proof.Machine

/-- `V[x]` (R8, R20). -/
def State.getV (s : State) (x : Nibble) : Byte := s.v[x.toNat]'x.isLt

/-- `V[x] <- b` (R8, R20). -/
def State.setV (s : State) (x : Nibble) (b : Byte) : State := { s with v := s.v.set x.toNat b x.isLt }

/-- `PC <- w` (R8). -/
def State.setPc (s : State) (w : Word) : State := { s with pc := w }

/-- `I <- w` (R8). -/
def State.setI (s : State) (w : Word) : State := { s with i := w }

/-- `DT <- b` (R8). -/
def State.setDt (s : State) (b : Byte) : State := { s with dt := b }

/-- `ST <- b` (R8). -/
def State.setSt (s : State) (b : Byte) : State := { s with st := b }

/-- `WK <- b` (R8). -/
def State.setWk (s : State) (b : Byte) : State := { s with wk := b }

/-- The whole display buffer written (R32). -/
def State.setDisp (s : State) (d : DispBuf) : State := { s with disp := d }

/-- One free byte taken (R133, log 2). -/
def State.countDraw (s : State) : State := { s with draws := s.draws + 1 }

/-- The index of VF (R21). -/
abbrev vf : Nibble := 15

/-- `zext_16` of a 12-bit field (R7, R74). -/
def zextAddr (nnn : Addr) : Word := nnn.setWidth 16

/-- `zext_16` of a byte (R7). -/
def zextByte (b : Byte) : Word := b.setWidth 16

/-- `zext_8` of a 4-bit field (R7). -/
def zextNibble (k : Nibble) : Byte := k.setWidth 8

/-- The low nibble of a register value (R154, R173, R174). -/
def lowNibble (b : Byte) : Nibble := b.extractLsb' 0 4

/-- `Keys[k]` (R8, R30). -/
def State.key (s : State) (k : Nibble) : Bool := s.keys[k.toNat]'k.isLt

/-- `Keys[k] <- b` (R8, R30). -/
def State.setKey (s : State) (k : Nibble) (b : Bool) : State :=
  { s with keys := s.keys.set k.toNat b k.isLt }

/-- `Disp[row][col]` (R8, R32). -/
def State.pixel (s : State) (row : Screen.Row) (col : Screen.Col) : Bool := Screen.pixel s.disp row col

/-- `MemRead(addr, 1)` (R9, R51). -/
def State.memRead (s : State) (addr : Nat) : Byte := Memory.read s.params s.mem addr

/-- `MemWrite(addr, 1, b)` (R9, R51). -/
def State.memWrite (s : State) (addr : Nat) (b : Byte) : State :=
  { s with mem := Memory.write s.params s.mem addr b }

/-- The address of glyph d: `FONT_BASE + 5 * d` (R34, R154). -/
def glyphAddr (p : Config.Params) (d : Nibble) : Word := zextAddr p.fontBase + 5 * d.setWidth 16

end Sys2Proof.Machine
end

