-- ==== Sys2Proof/Machine/Ops.lean ====
section
/-! DEFINITION. The shared operations of the meanings and of the step.
The core takes no exception and returns from none (R210, R213, R214), so there is no such operation here. -/

namespace Sys2Proof.Machine

/-! ### Fetch (R53, R73) -/

/-- `Fetch16(a)`: the high byte first (R53). -/
def State.fetch16 (s : State) (a : Nat) : Word := wordOfBytes (s.memRead a) (s.memRead (a + 1))

/-- The opcode the next step fetches (R73). -/
def State.fetchedWord (s : State) : Word := s.fetch16 s.pc.toNat

/-- The instruction the next step executes (R73). -/
def State.fetchedInstr (s : State) : Instr := decodeWord s.fetchedWord

/-- `PC <- (PC + 2) mod 2^16` (R73). -/
def State.advancePc (s : State) : State := s.setPc (s.pc + 2)

/-- `WK[7]`: does the core wait for a key? (R31, R73). -/
def State.waiting (s : State) : Bool := s.wk.getLsbD 7

/-- `WK[7] <- 0`, the other bits kept (R176, D28). -/
def State.clearWait (s : State) : State := s.setWk (s.wk &&& 0x7F)

/-! ### Control flow -/

/-- A further `PC <- (PC + 2) mod 2^16` when the condition of a skip holds (R105 to R108, R173, R174). -/
def State.skipIf (s : State) (c : Bool) : State := if c then s.advancePc else s

/-- What 2nnn pushes: PC, which is the address of the call plus 2, or the constant 0x000C (R103, D4). -/
def State.linkValue (s : State) : Word :=
  match s.params.callLinkMode with
  | .returnAddress => s.pc
  | .capacityConstant => 0x000C

/-- The entry a stack pointer names: it "indexes it modulo 12" (R27), itself when the `SP` range is 0 to 11. -/
def stackSlot (sp : Nat) : Fin 12 := ⟨sp % 12, Nat.mod_lt _ (by decide)⟩

/-- `SP + 1` in the `SP` range, which is mod 12 by default (R27). -/
def State.nextSp (s : State) : Nat := (s.sp + 1) % (s.params.spMax + 1)

/-- `SP - 1` in the `SP` range, which is mod 12 by default (R27). -/
def State.prevSp (s : State) : Nat := (s.sp + s.params.spMax) % (s.params.spMax + 1)

/-- What a stack entry keeps of a value: its low `STACK_ENTRY_WIDTH` bits, all 16 by default (R26, log 27). -/
def State.stackEntry (s : State) (w : Word) : Word := BitVec.ofNat 16 (w.toNat % 2 ^ s.params.stackEntryWidth)

/-- The push of 2nnn: `SP <- (SP + 1) mod 12`, then `Stack[SP] <- w` (R103). -/
def State.push (s : State) (w : Word) : State :=
  { s with
    sp := s.nextSp
    stack := s.stack.set (stackSlot s.nextSp).val (s.stackEntry w) (stackSlot s.nextSp).isLt }

/-- The pop of 00EE: `PC <- Stack[SP]`, then `SP <- (SP - 1) mod 12` (R100). -/
def State.popPc (s : State) : State := { s with pc := s.stack[stackSlot s.sp], sp := s.prevSp }

/-! ### ALU -/

/-- Steps 3 and 4 of R121: the flag is written first and the result last, so VF holds the result when x is 15. -/
def State.writeFlagThenResult (s : State) (x : Nibble) (q : Flags.Result) : State :=
  (s.setV vf (Flags.toByte q.f)).setV x q.r

/-- Cxkk with the byte drawn: `V[x] <- r & kk` (R133). -/
def State.applyDraw (s : State) (x : Nibble) (kk r : Byte) : State := s.setV x (r &&& kk)

/-! ### Memory transfers -/

/-- One iteration of Fx55: `MemWrite(I, 1, V[k])`, then `I <- (I + 1) mod 2^16` (R193). -/
def State.dumpOne (s : State) (k : Nibble) : State :=
  (s.memWrite s.i.toNat (s.getV k)).setI (s.i + 1)

/-- The iterations for k from 0 to `n - 1` of Fx55 (R193). -/
def State.dumpUpTo : Nat → State → State
  | 0, s => s
  | k + 1, s => (State.dumpUpTo k s).dumpOne (BitVec.ofNat 4 k)

/-- One iteration of Fx65: `V[k] <- MemRead(I, 1)`, then `I <- (I + 1) mod 2^16` (R194). -/
def State.loadOne (s : State) (k : Nibble) : State :=
  (s.setV k (s.memRead s.i.toNat)).setI (s.i + 1)

/-- The iterations for k from 0 to `n - 1` of Fx65 (R194). -/
def State.loadUpTo : Nat → State → State
  | 0, s => s
  | k + 1, s => (State.loadUpTo k s).loadOne (BitVec.ofNat 4 k)

/-- The three stores of Fx33: hundreds, tens, units at I, I + 1, I + 2 (R192). -/
def State.storeDigits (s : State) (v : Byte) : State :=
  ((s.memWrite s.i.toNat (v / 100)).memWrite (s.i.toNat + 1) (v / 10 % 10)).memWrite
    (s.i.toNat + 2) (v % 10)

/-! ### Drawing -/

/-- The blit of Dxyn: coordinates and base are read before any write (R151). -/
def State.blit (s : State) (x y n : Nibble) : Screen.Blit :=
  Screen.drawRows (fun r => s.memRead (s.i.toNat + r)) (s.getV x).toNat (s.getV y).toNat n.toNat
    ⟨s.disp, false⟩

end Sys2Proof.Machine
end

