-- ==== Sys2Proof/Machine/Alu.lean ====
section
/-! DEFINITION. Register loads, arithmetic, bitwise operations, shifts and random (`42_alu.md`).
The flag writers read both operands before any write (R121). -/

namespace Sys2Proof.Machine

/-- 6xkk (R122). -/
def execLdImm (x : Nibble) (kk : Byte) (s : State) : Host.Outcome State Fault Refusal :=
  .next (s.setV x kk)

/-- 8xy0 (R123). -/
def execLdReg (x y : Nibble) (s : State) : Host.Outcome State Fault Refusal :=
  .next (s.setV x (s.getV y))

/-- 7xkk, no flag (R124). -/
def execAddImm (x : Nibble) (kk : Byte) (s : State) : Host.Outcome State Fault Refusal :=
  .next (s.setV x (s.getV x + kk))

/-- 8xy1 (R125). -/
def execOr (x y : Nibble) (s : State) : Host.Outcome State Fault Refusal :=
  .next (s.setV x (s.getV x ||| s.getV y))

/-- 8xy2 (R126). -/
def execAnd (x y : Nibble) (s : State) : Host.Outcome State Fault Refusal :=
  .next (s.setV x (s.getV x &&& s.getV y))

/-- 8xy3 (R127). -/
def execXor (x y : Nibble) (s : State) : Host.Outcome State Fault Refusal :=
  .next (s.setV x (s.getV x ^^^ s.getV y))

/-- 8xy4 (R128). -/
def execAddReg (x y : Nibble) (s : State) : Host.Outcome State Fault Refusal :=
  .next (s.writeFlagThenResult x (Flags.add (s.getV x) (s.getV y)))

/-- 8xy5 (R129). -/
def execSub (x y : Nibble) (s : State) : Host.Outcome State Fault Refusal :=
  .next (s.writeFlagThenResult x (Flags.sub (s.getV x) (s.getV y)))

/-- 8xy7 (R130). -/
def execSubn (x y : Nibble) (s : State) : Host.Outcome State Fault Refusal :=
  .next (s.writeFlagThenResult x (Flags.sub (s.getV y) (s.getV x)))

/-- 8xy6: shifts Vy into Vx (R131). -/
def execShr (x y : Nibble) (s : State) : Host.Outcome State Fault Refusal :=
  .next (s.writeFlagThenResult x (Flags.shr (s.getV y)))

/-- 8xyE: shifts Vy into Vx (R132). -/
def execShl (x y : Nibble) (s : State) : Host.Outcome State Fault Refusal :=
  .next (s.writeFlagThenResult x (Flags.shl (s.getV y)))

/-- Cxkk: takes one free byte (R133). -/
def execRnd (x : Nibble) (kk : Byte) (s : State) : Host.Outcome State Fault Refusal :=
  .next (s.applyDraw x kk (Config.randomByte s.draws)).countDraw

end Sys2Proof.Machine
end

