-- ==== Sys2Proof/Machine/Display.lean ====
section
/-! DEFINITION. Clear, draw and font (`43_display.md`). -/

namespace Sys2Proof.Machine

/-- 00E0 (R150). -/
def execCls (s : State) : Host.Outcome State Fault Refusal := .next (s.setDisp Screen.blank)

/-- Dxyn: VF is written on every execution, last (R151). -/
def execDrw (x y n : Nibble) (s : State) : Host.Outcome State Fault Refusal :=
  .next ((s.setDisp (s.blit x y n).disp).setV vf (Flags.toByte (s.blit x y n).hit))

/-- Fx29 (R154). -/
def execLdF (x : Nibble) (s : State) : Host.Outcome State Fault Refusal :=
  .next (s.setI (glyphAddr s.params (lowNibble (s.getV x))))

end Sys2Proof.Machine
end

