-- ==== Sys2Proof/Machine/IndexMemory.lean ====
section
/-! DEFINITION. The index register and memory transfers (`45_index_memory.md`). -/

namespace Sys2Proof.Machine

/-- Annn (R190). -/
def execLdI (nnn : Addr) (s : State) : Host.Outcome State Fault Refusal :=
  .next (s.setI (zextAddr nnn))

/-- Fx1E: VF is bit 12 of the sum; Vx is read before VF is written (R191). -/
def execAddI (x : Nibble) (s : State) : Host.Outcome State Fault Refusal :=
  let sum := Flags.addIndex s.i (s.getV x)
  .next ((s.setV vf (Flags.toByte sum.2)).setI sum.1)

/-- Fx33 (R192). -/
def execBcd (x : Nibble) (s : State) : Host.Outcome State Fault Refusal :=
  .next (s.storeDigits (s.getV x))

/-- Fx55 (R193). -/
def execDump (x : Nibble) (s : State) : Host.Outcome State Fault Refusal :=
  .next (s.dumpUpTo (x.toNat + 1))

/-- Fx65 (R194). -/
def execLoad (x : Nibble) (s : State) : Host.Outcome State Fault Refusal :=
  .next (s.loadUpTo (x.toNat + 1))

end Sys2Proof.Machine
end

