-- ==== Sys2Proof/Machine/Unmatched.lean ====
section
/-! DEFINITION. The opcodes that match no row (R75, R76). -/

namespace Sys2Proof.Machine

/-- An unmatched opcode: the fetch advance is its only effect, or the step is refused under
`UNLISTED_POLICY = refuse` (R75, R76). -/
def execNopUnmatched (w : Word) (s : State) : Host.Outcome State Fault Refusal :=
  match s.params.unlistedPolicy with
  | .nop => .next s
  | .refuse => .refused (.unlistedOpcode w)

end Sys2Proof.Machine
end

