-- ==== Sys2Proof/Machine/Events.lean ====
section
/-! DEFINITION. The host's input events but `step` (R37, R215 to R217, R60) and the output ports (R37, R218).
Each is total: no event of the host faults or transfers control (R211, R213). -/

namespace Sys2Proof.Machine

/-- `MemWrite(a + i, 1, b[i])` for i in increasing order, the address not yet reduced (R60). -/
def State.storeBytes : State → Nat → List Byte → State
  | s, _, [] => s
  | s, a, b :: rest => State.storeBytes (s.memWrite a b) (a + 1) rest

/-- The host's Load operation with offset `o` (R60); it changes memory only. -/
def State.loadImage (s : State) (o : Addr) (image : List Byte) : State := s.storeBytes o.toNat image

/-- A word stored as memory holds it, the high byte first (R53). -/
def State.placeWord (s : State) (a : Nat) (w : Word) : State :=
  s.storeBytes a [(bytesOfWord w).1, (bytesOfWord w).2]

/-- The register `WK[6:0]` names (R31).
Only x of 4 bits is ever written there, so bits 6 to 4 are 0 in every reachable state (log 12). -/
def State.waitDest (s : State) : Nibble := s.wk.extractLsb' 0 4

/-- `V[WK[6:0]] <- k`, then `WK <- WK & 0x7F`: the end of a wait (R176, R215). -/
def State.resolveWait (s : State) (k : Nibble) : State := (s.setV s.waitDest (zextNibble k)).clearWait

/-- `key_down(k)` (R215). -/
def State.keyDown (s : State) (k : Nibble) : State :=
  let s' := s.setKey k true
  if s'.waiting then s'.resolveWait k else s'

/-- `key_up(k)` (R216). -/
def State.keyUp (s : State) (k : Nibble) : State := s.setKey k false

/-- `max(0, t - n)` of a timer (R217). -/
def countDown (t : Byte) (n : Nat) : Byte := BitVec.ofNat 8 (t.toNat - n)

/-- `tick(n)` (R217), in the wait state as in the run state (R227). -/
def State.tick (s : State) (n : Nat) : State :=
  if 0 < n then (s.setDt (countDown s.dt n)).setSt (countDown s.st n) else s

/-- The colour of a pixel: 0x000000 for off, 0xFFFFFF for on, the top byte 0 (R218, D25). -/
def colour (on : Bool) : Colour := if on then 0xFFFFFF else 0x000000

/-- The `frame` port: what `render` returns, 2048 colours, row-major (R37, R218). -/
def State.frame (s : State) : List Colour :=
  (List.finRange 32).flatMap fun row =>
    (List.finRange 64).map fun col => colour (s.pixel row col)

end Sys2Proof.Machine
end

