-- ==== Sys2Proof/Machine/Step.lean ====
section
/-! DEFINITION. One invocation of the Instruction Engine (R73), and where the next instruction is fetched from. -/

namespace Sys2Proof.Machine

/-- The fetch-decode-execute cycle of R73: while `WK[7] = 1` the step holds and changes nothing; otherwise it
fetches at PC, advances PC by 2 and executes the instruction. -/
def step (s : State) : Host.Outcome State Fault Refusal :=
  if s.waiting then .next s else exec s.fetchedInstr s.advancePc

/-- The state with a word stored where the next step fetches, and able to run it: the wait is over.
`nbits w` is the word as the opcode table numbers its bits. -/
def State.withFetchWord (s : State) (nbits w : Nat) : State :=
  (s.placeWord s.pc.toNat (tableWord nbits w)).clearWait

end Sys2Proof.Machine
end

