-- ==== Sys2Proof/Machine/Run.lean ====
section
/-! DEFINITION. Runs as sequences of atomic events (R212); the host chooses the sequence, and it is free. -/

namespace Sys2Proof.Machine

/-- The events of R212. -/
inductive Event where
  /-- One invocation of the Instruction Engine (R73). -/
  | step
  /-- The Load operation (R60). -/
  | load (o : Addr) (image : List Byte)
  /-- R215; the port is 4 bits wide, so no other key index can be delivered (R37). -/
  | keyDown (k : Nibble)
  /-- R216 -/
  | keyUp (k : Nibble)
  /-- R217 -/
  | tick (n : Nat)
  /-- R218; its output is `State.frame`. -/
  | render
  deriving DecidableEq, Repr

/-- One event, applied to the whole state (R212). -/
def deliver (e : Event) (s : State) : Host.Outcome State Fault Refusal :=
  match e with
  | .step => step s
  | .load o image => .next (s.loadImage o image)
  | .keyDown k => .next (s.keyDown k)
  | .keyUp k => .next (s.keyUp k)
  | .tick n => .next (s.tick n)
  | .render => .next s

/-- A sequence of events, each applied before the next begins (R212). -/
def run : List Event → State → Host.Outcome State Fault Refusal
  | [], s => .next s
  | e :: rest, s =>
    match deliver e s with
    | .next t => run rest t
    | .fault r => .fault r
    | .refused r => .refused r

/-- The source's run: reset, the image loaded at `LOAD_ORIGIN`, then the events the host chooses (R246). -/
def boot (p : Config.Params) (image : List Byte) (events : List Event) : Host.Outcome State Fault Refusal :=
  run (.load p.loadOrigin image :: events) (State.resetWith p)

/-- The pacing of the source's execution loop, informative (R220, D18): at most `rate * n` steps since the
last tick come before a `tick(n)`.
`sinceTick` counts the steps since the last tick event; no rule of the core depends on this. -/
def paced (rate : Nat) : (sinceTick : Nat) → List Event → Bool
  | _, [] => true
  | k, .step :: rest => paced rate (k + 1) rest
  | k, .tick n :: rest => decide (k ≤ rate * n) && paced rate 0 rest
  | k, .load _ _ :: rest => paced rate k rest
  | k, .keyDown _ :: rest => paced rate k rest
  | k, .keyUp _ :: rest => paced rate k rest
  | k, .render :: rest => paced rate k rest

/-- The host's pacing at the core's own `IPF` (R220). -/
def pacedByHost (events : List Event) : Bool := paced Config.ipf 0 events

end Sys2Proof.Machine
end

