-- ==== Sys2Proof/Safety.lean ====
section
/-! DEFINITION. What counts as a safe run, and the words statements are made with: the machine invariant, the
parts of the state (R38) and who reads and writes them, final states (R251). -/

namespace Sys2Proof.Machine

/-- The invariant of the machine: memory is canonical, DEST of WK is a register index (R31: "bits 6:4 are
always 0, since x is 4 bits"), SP is in its range (R27), and every stack entry has its width (R26). -/
structure State.Inv (s : State) : Prop where
  mem_wf    : Memory.wf s.params s.mem
  dest_legal : (s.wk.extractLsb' 4 3 : BitVec 3) = 0
  sp_legal   : s.sp ≤ s.params.spMax
  stack_fits : ∀ j : Fin 12, s.stack[j].toNat < 2 ^ s.params.stackEntryWidth

/-- A step that answers a next state: neither a fault nor a refusal. -/
def State.Steps (s : State) : Prop := ∃ t, step s = .next t

/-- A final state of R251: not waiting, PC at most 0x0FFF, and the next word a jump to itself. -/
def State.isFinal (s : State) : Bool :=
  !s.waiting && decide (s.pc.toNat ≤ 0x0FFF) && s.fetchedWord == (0x1000 ||| s.pc)

/-- The scalar registers, and the cells of the state arrays, of R38. -/
inductive Part where
  | v (r : Nibble)
  | pc
  | i
  | sp
  | stack (j : Fin 12)
  | dt
  | st
  | key (k : Nibble)
  | wk
  | pixel (row : Screen.Row) (col : Screen.Col)
  | mem (a : Addr)
  /-- The model's own counter of free bytes. -/
  | draws
  deriving DecidableEq, Repr

/-- The value of a part; every value of the core is an unsigned number (R7). -/
def State.observe (s : State) : Part → Nat
  | .v r => (s.getV r).toNat
  | .pc => s.pc.toNat
  | .i => s.i.toNat
  | .sp => s.sp
  | .stack j => s.stack[j].toNat
  | .dt => s.dt.toNat
  | .st => s.st.toNat
  | .key k => (s.key k).toNat
  | .wk => s.wk.toNat
  | .pixel row col => (s.pixel row col).toNat
  | .mem a => (s.memRead a.toNat).toNat
  | .draws => s.draws

/-- The memory cell `M[(I + k) mod 4096]`. -/
def State.cell (s : State) (k : Nat) : Part := .mem (BitVec.ofNat 12 (s.i.toNat + k))

/-- The pixel that bit (r, c) of a sprite falls on, with wrap on both axes (R151). -/
def State.target (s : State) (x y : Nibble) (r c : Nat) : Part :=
  .pixel (Screen.wrapRow ((s.getV y).toNat + r)) (Screen.wrapCol ((s.getV x).toNat + c))

/-- Does a 1 bit of the sprite of `Dxyn` fall on the pixel (row, col)? Row r of the sprite is the byte at
`I + r`, and its column c is bit `7 - c` (R151, D7). -/
def State.spriteCovers (s : State) (x y n : Nibble) (row : Screen.Row) (col : Screen.Col) : Prop :=
  ∃ r c, r < n.toNat ∧ c < 8 ∧ (s.memRead (s.i.toNat + r)).getLsbD (7 - c) = true ∧
    row.val = ((s.getV y).toNat + r) % 32 ∧ col.val = ((s.getV x).toNat + c) % 64

/-- The frame: every part but those named is unchanged, and so are the parameters. -/
def Frame (s t : State) (named : Part → Prop) : Prop :=
  t.params = s.params ∧ ∀ q, ¬ named q → t.observe q = s.observe q

/-- What an instruction writes beside the fetch advance of PC: the w entries of R38, cell by cell. -/
def writes (ins : Instr) (s : State) (q : Part) : Prop :=
  match ins with
  | .cls => ∃ row col, q = .pixel row col
  | .ret => q = .pc ∨ q = .sp
  | .jp _ | .jpV0 _ => q = .pc
  | .call _ => q = .pc ∨ q = .sp ∨ q = .stack (stackSlot s.nextSp)
  | .ldVxK _ => q = .wk
  | .ldImm x _ | .ldReg x _ | .addImm x _ | .or x _ | .and x _ | .xor x _ | .ldVxDt x => q = .v x
  | .addReg x _ | .sub x _ | .subn x _ | .shr x _ | .shl x _ => q = .v x ∨ q = .v vf
  | .rnd x _ => q = .v x ∨ q = .draws
  | .drw x y n => q = .v vf ∨ ∃ r c, r < n.toNat ∧ c < 8 ∧ q = s.target x y r c
  | .ldF _ | .ldI _ => q = .i
  | .ldDtVx _ => q = .dt
  | .ldStVx _ => q = .st
  | .addI _ => q = .i ∨ q = .v vf
  | .seImm _ _ | .sneImm _ _ | .seReg _ _ | .sneReg _ _ | .skp _ | .sknp _ => q = .pc
  | .bcd _ => ∃ k, k < 3 ∧ q = s.cell k
  | .dump x => q = .i ∨ ∃ k, k ≤ x.toNat ∧ q = s.cell k
  | .load x => q = .i ∨ ∃ r : Nibble, r ≤ x ∧ q = .v r
  | .nopUnmatched _ => False

/-- What an instruction reads: the r entries of R38, cell by cell, and PC, which every instruction reads.
Keys are read at the one index the low nibble of Vx names. -/
def reads (ins : Instr) (s : State) (q : Part) : Prop :=
  q = .pc ∨
  match ins with
  | .cls | .jp _ | .ldImm _ _ | .ldI _ | .ldVxK _ | .nopUnmatched _ => False
  | .ret => q = .sp ∨ q = .stack (stackSlot s.sp)
  | .jpV0 _ => q = .v 0
  | .call _ => q = .sp
  | .ldReg _ y | .shr _ y | .shl _ y => q = .v y
  | .addImm x _ | .seImm x _ | .sneImm x _ | .ldF x | .ldDtVx x | .ldStVx x => q = .v x
  | .or x y | .and x y | .xor x y | .addReg x y | .sub x y | .subn x y | .seReg x y
  | .sneReg x y => q = .v x ∨ q = .v y
  | .rnd _ _ => q = .draws
  | .drw x y n => q = .v x ∨ q = .v y ∨ q = .i ∨ (∃ r, r < n.toNat ∧ q = s.cell r) ∨
      ∃ r c, r < n.toNat ∧ c < 8 ∧ q = s.target x y r c
  | .ldVxDt _ => q = .dt
  | .addI x | .bcd x => q = .v x ∨ q = .i
  | .skp x | .sknp x => q = .v x ∨ q = .key (lowNibble (s.getV x))
  | .dump x => q = .i ∨ ∃ r : Nibble, r ≤ x ∧ q = .v r
  | .load x => q = .i ∨ ∃ k, k ≤ x.toNat ∧ q = s.cell k

/-- Two states that differ at most in bits 15 to 12 of PC, of I and of the return addresses on the stack (R23, R25). -/
structure SameBelow12 (s t : State) : Prop where
  others : t = { s with pc := t.pc, i := t.i, stack := t.stack }
  pc     : t.pc.toNat % 4096 = s.pc.toNat % 4096
  i      : t.i.toNat % 4096 = s.i.toNat % 4096
  stack  : ∀ j : Fin 12, t.stack[j].toNat % 4096 = s.stack[j].toNat % 4096

/-- Two outcomes of the same kind, next states related and reasons equal. -/
def OutcomesRelated (rel : State → State → Prop) :
    Host.Outcome State Fault Refusal → Host.Outcome State Fault Refusal → Prop
  | .next s, .next t => rel s t
  | .fault a, .fault b => a = b
  | .refused a, .refused b => a = b
  | .next _, .fault _ | .next _, .refused _ | .fault _, .next _ | .fault _, .refused _
  | .refused _, .next _ | .refused _, .fault _ => False

/-- Nested calls: for each pair, 2nnn executed with PC at the return address (PC is already past the call, R10).
How PC came there is left open, as R104 leaves it. -/
def nestedCalls : List (Word × Addr) → State → Option State
  | [], s => some s
  | (ra, nnn) :: rest, s =>
    match exec (.call nnn) (s.setPc ra) with
    | .next t => nestedCalls rest t
    | .fault _ | .refused _ => none

/-- `n` returns in a row: the values they give PC, in order, and the state after them. -/
def returns : Nat → State → Option (List Word × State)
  | 0, s => some ([], s)
  | n + 1, s =>
    match exec .ret s with
    | .next t => (returns n t).map fun q => (t.pc :: q.1, q.2)
    | .fault _ | .refused _ => none

end Sys2Proof.Machine
end

