-- ==== Sys2Proof/Certificates/Slice0/Obligations.lean ====
section
/-! DEFINITION. The statements for the provers.
In every statement about `exec`, PC already holds the instruction's address plus 2 (R10), and the bit patterns are
those of R72, most significant field first. -/

open Sys2Proof Sys2Proof.Machine

/-! ### Encoding -/

/-- Derived from R72 and R77: no operand bit of any instruction is lost between encoder and decoder, on words and on
bytes. -/
def Obligations.DecodeEncodeRoundTrip : Prop :=
  ∀ (ins : Instr) (rest : List Byte), ins.wf = true →
    decodeWord (encode ins) = ins ∧ decodeBytes (encodeBytes ins ++ rest) = .ok (ins, rest)

/-- Derived from R75 and R77: every one of the 65536 opcodes decodes to a well-formed instruction whose encoding is
that opcode again. -/
def Obligations.EveryOpcodeDecodesAndReencodes : Prop :=
  ∀ w : Word, (decodeWord w).wf = true ∧ encode (decodeWord w) = w

/-- Derived from R77: "No two predicates hold for one opcode, so row order never changes the result". -/
def Obligations.DispatchRowOrderNeverMatters : Prop :=
  ∀ w : Word,
    (∀ j k : Fin dispatchTable.length,
      dispatchTable[j].holds (fieldsOf w) = true → dispatchTable[k].holds (fieldsOf w) = true → j = k) ∧
    ∀ rows : List Row, rows.Perm dispatchTable → dispatch rows (fieldsOf w) = decodeWord w

/-- Derived from R75: the opcodes that no row matches are exactly those of its table, and its numbers are right:
4094, 3840, 1792, 3840, 4064 and 3952 in classes 0, 5, 8, 9, E and F, and none elsewhere. -/
def Obligations.UnmatchedOpcodesAreTheTable : Prop :=
  (∀ w : Word, decodeWord w = .nopUnmatched w ↔ isUnmatched w = true) ∧
    ∀ u : Fin 16,
      ((List.range 4096).filter fun n => isUnmatched (BitVec.ofNat 16 (u.val * 4096 + n))).length =
        match u.val with
        | 0x0 => 4094 | 0x5 => 3840 | 0x8 => 1792 | 0x9 => 3840 | 0xE => 4064 | 0xF => 3952 | _ => 0

/-- R71: each field is the bits the rule gives it, as an unsigned number. -/
def Obligations.FieldsAreTheBitsOfTheOpcode : Prop :=
  ∀ op : Word,
    (fieldsOf op).u.toNat = op.toNat / 4096 ∧ (fieldsOf op).x.toNat = op.toNat / 256 % 16 ∧
    (fieldsOf op).y.toNat = op.toNat / 16 % 16 ∧ (fieldsOf op).p.toNat = op.toNat % 16 ∧
    (fieldsOf op).kk.toNat = op.toNat % 256 ∧ (fieldsOf op).nnn.toNat = op.toNat % 4096

/-- Sanity: a few opcodes of `95_test_vectors.md`, written out bit by bit from R72. -/
def Obligations.SampleOpcodesDecode : Prop :=
  decodeWord 0b0000000011100000 = .cls ∧ decodeWord 0b0000000011101110 = .ret ∧
  decodeWord 0b0001001000110100 = .jp 0x234 ∧ decodeWord 0b0110101001111111 = .ldImm 0xA 0x7F ∧
  decodeWord 0b1000000011110110 = .shr 0x0 0xF ∧ decodeWord 0b1101000000010101 = .drw 0x0 0x1 0x5 ∧
  decodeWord 0b1110001110100001 = .sknp 0x3 ∧ decodeWord 0b1111001001100101 = .load 0x2 ∧
  decodeWord 0b0101000100100001 = .nopUnmatched 0x5121

/-! ### The step -/

/-- R53: fetch is big-endian, at any address, and its second byte wraps. -/
def Obligations.FetchIsBigEndian : Prop :=
  ∀ (s : State) (a : Nat),
    (s.fetch16 a).toNat = (s.memRead (a % 4096)).toNat * 256 + (s.memRead ((a + 1) % 4096)).toNat

/-- Derived from R73 (its hold is the spec's decision D25): when the core is not waiting and the two bytes at PC,
high byte first and wrapping mod 4096, are those of a well-formed instruction, the step is that instruction's action
on the state with PC past it; while the core waits, the step changes nothing. -/
def Obligations.StepRunsDecodedInstruction : Prop :=
  (∀ (s : State) (ins : Instr), s.wk.toNat < 128 → ins.wf = true →
    encodeBytes ins = [s.memRead (s.pc.toNat % 4096), s.memRead ((s.pc.toNat + 1) % 4096)] →
    step s = exec ins (s.setPc (BitVec.ofNat 16 (s.pc.toNat + 2)))) ∧
  ∀ s : State, 128 ≤ s.wk.toNat → step s = .next s

/-- Derived from R65 and R248: two bytes stored at PC are what the very next step executes; the model's
`withFetchWord` stores them so and ends a wait (log 16). -/
def Obligations.PlacedWordRunsNext : Prop :=
  ∀ (s : State) (w : Word), ∃ t : State, s.withFetchWord 16 w.toNat = t ∧
    step t = exec (decodeWord w) (t.setPc (s.pc + 2)) ∧
    Frame s t (fun q => q = .wk ∨ q = .mem (BitVec.ofNat 12 s.pc.toNat) ∨
      q = .mem (BitVec.ofNat 12 (s.pc.toNat + 1)))

/-- Derived from R210, R75 and R76: a step never faults; it answers a next state, always under the policy `nop`, and
is refused only for an unmatched opcode under the policy `refuse`. -/
def Obligations.NoStepFaults : Prop :=
  ∀ s : State,
    (s.params.unlistedPolicy = .nop → s.Steps) ∧
    (isUnmatched s.fetchedWord = false → s.Steps) ∧
    (∀ r, step s ≠ .fault r) ∧
    ∀ r, step s = .refused r →
      r = .unlistedOpcode s.fetchedWord ∧ s.params.unlistedPolicy = .refuse ∧ isUnmatched s.fetchedWord = true

/-! ### Invariants -/

/-- Derived from R240 to R244, R26, R27 and R31: the invariant holds after reset, for all parameters whose SP_RESET is in
the SP range. -/
def Obligations.ResetMeetsInvariant : Prop :=
  State.reset.Inv ∧ ∀ p : Config.Params, p.spReset ≤ p.spMax → (State.resetWith p).Inv

/-- Derived from R31, R51, R26, R27 and R36: a step keeps memory canonical, DEST of WK a register index, SP in its range,
every stack entry at its width, and the parameters. -/
def Obligations.StepKeepsInvariant : Prop :=
  ∀ s t : State, s.Inv → step s = .next t → t.Inv ∧ t.params = s.params

/-- Derived from R212 and R246: so does every sequence of host events and steps, from any state that meets the
invariant and from the boot of any image with any parameters whose SP_RESET is in the SP range. -/
def Obligations.EveryRunKeepsInvariant : Prop :=
  (∀ (events : List Event) (s t : State), s.Inv → run events s = .next t → t.Inv ∧ t.params = s.params) ∧
    ∀ p image events t, p.spReset ≤ p.spMax → boot p image events = .next t → t.Inv ∧ t.params = p

/-! ### Reset -/

/-- Derived from R241 to R244, which rest on the spec's decisions D1, D2, D3, D5, D6 and D11: every register, the
stack, keys, flag, display and memory after reset, with any parameters; and the defaults of R5, which rest on D1 (PC), D2
(SP), D3 (stack entry width), D4 (CALL_LINK_MODE, log 17), D5 (FONT_BASE), D6 (the 80 glyph bytes of R153's table, log 15)
and D13 (UNLISTED_POLICY, log 9). -/
def Obligations.ResetState : Prop :=
  (∀ p : Config.Params, p.wf →
    let s := State.resetWith p
    s.pc.toNat = p.loadOrigin.toNat ∧ s.sp = p.spReset ∧ s.i = 0 ∧ s.dt = 0 ∧ s.st = 0 ∧ s.wk = 0 ∧
    (∀ x, s.getV x = 0) ∧ (∀ j : Fin 12, s.stack[j] = 0) ∧ (∀ k, s.key k = false) ∧
    (∀ row col, s.pixel row col = false) ∧ (∀ k : Fin 80, s.memRead (p.fontBase.toNat + k) = p.fontData[k]) ∧
    ∀ a, a < 4096 → (a < p.fontBase.toNat ∨ p.fontBase.toNat + 80 ≤ a) → s.memRead a = 0) ∧
  State.reset.pc = 0x0200 ∧ State.reset.sp = 11 ∧ State.reset.params.spMax = 11 ∧
  State.reset.params.stackEntryWidth = 16 ∧ State.reset.params.fontBase = 0x000 ∧
  State.reset.params.callLinkMode = .returnAddress ∧ State.reset.params.unlistedPolicy = .nop ∧
  State.reset.memRead 0x050 = 0 ∧
  (List.range 80).map State.reset.memRead =
    ([0xF0, 0x90, 0x90, 0x90, 0xF0, 0x20, 0x60, 0x20, 0x20, 0x70] ++
      [0xF0, 0x10, 0xF0, 0x80, 0xF0, 0xF0, 0x10, 0xF0, 0x10, 0xF0] ++
      [0x90, 0x90, 0xF0, 0x10, 0x10, 0xF0, 0x80, 0xF0, 0x10, 0xF0] ++
      [0xF0, 0x80, 0xF0, 0x90, 0xF0, 0xF0, 0x10, 0x20, 0x40, 0x40] ++
      [0xF0, 0x90, 0xF0, 0x90, 0xF0, 0xF0, 0x90, 0xF0, 0x10, 0xF0] ++
      [0xF0, 0x90, 0xF0, 0x90, 0x90, 0xE0, 0x90, 0xE0, 0x90, 0xE0] ++
      [0xF0, 0x80, 0x80, 0x80, 0xF0, 0xE0, 0x90, 0x90, 0x90, 0xE0] ++
      [0xF0, 0x80, 0xF0, 0x80, 0xF0, 0xF0, 0x80, 0xF0, 0x80, 0x80])

/-! ### Memory -/

/-- R51: every address is reduced mod 4096 before the access, for every address, and a write is seen by every read
of that byte and by no other. -/
def Obligations.MemoryWrapsAndReadsBackWrites : Prop :=
  ∀ (s : State) (a b : Nat) (x : Byte),
    s.memRead a = s.memRead (a % 4096) ∧ s.memWrite a x = s.memWrite (a % 4096) x ∧
    (s.memWrite a x).memRead b = (if a % 4096 = b % 4096 then x else s.memRead b) ∧
    Frame s (s.memWrite a x) (fun q => q = .mem (BitVec.ofNat 12 a))

/-- Derived from R33 and the model's canonical form (log 6): memories in canonical form that read alike at all 4096
addresses are equal, and a write keeps the form. -/
def Obligations.CanonicalMemoriesThatReadAlikeAreEqual : Prop :=
  (∀ p m n, Memory.wf p m → Memory.wf p n →
    (∀ a, a < 4096 → Memory.read p m a = Memory.read p n a) → m = n) ∧
    ∀ p m a x, Memory.wf p m → Memory.wf p (Memory.write p m a x)

/-! ### What every instruction touches -/

/-- Derived from R38 (its write entries): an instruction that answers a next state leaves every part unchanged but those
the access matrix gives it, every byte of memory, pixel, stack entry and key among them. -/
def Obligations.InstructionsWriteOnlyTheirParts : Prop :=
  ∀ (ins : Instr) (s t : State), exec ins s = .next t → Frame s t (writes ins s)

/-- Derived from R38 (its read entries): what an instruction writes, and where, depends only on the parts the access
matrix says it reads. -/
def Obligations.InstructionsDependOnlyOnWhatTheyRead : Prop :=
  ∀ (ins : Instr) (s₁ s₂ : State), s₁.params = s₂.params →
    (∀ q, reads ins s₁ q → s₁.observe q = s₂.observe q) →
    (∀ q, writes ins s₁ q ↔ writes ins s₂ q) ∧
    OutcomesRelated (fun t₁ t₂ => ∀ q, writes ins s₁ q → t₁.observe q = t₂.observe q)
      (exec ins s₁) (exec ins s₂)

/-- Derived from R23 and R25: bits 15 to 12 of PC and of I are never observable; states that agree below them have
outcomes that agree so, on a step and on every other event. -/
def Obligations.HighBitsOfPcAndIAreNeverObservable : Prop :=
  ∀ (s t : State), SameBelow12 s t →
    OutcomesRelated SameBelow12 (step s) (step t) ∧
    (∀ e : Event, OutcomesRelated SameBelow12 (deliver e s) (deliver e t)) ∧
    t.frame = s.frame ∧ t.waiting = s.waiting

/-! ### Control flow -/

/-- R100, SP being in the range 0 to 11 of R27; what 00EE does with any other range is in `RetCountsInTheSpRange`. -/
def Obligations.RetPopsTheRing : Prop :=
  decodeWord 0b0000000011101110 = .ret ∧
  ∀ s : State, ∃ t, exec .ret s = .next t ∧
    (∀ h : s.sp < 12, s.params.spMax = 11 → t.pc = s.stack[s.sp] ∧ t.sp = (s.sp + 11) % 12) ∧
    Frame s t (fun q => q = .pc ∨ q = .sp)

/-- The model's own choice for SP ranges other than R27's (log 27): 00EE pops the entry that SP names mod 12, SP goes down
in its range, and where SP was in its range a call just before is undone. -/
def Obligations.RetCountsInTheSpRange : Prop :=
  ∀ s : State,
    (∃ t, exec .ret s = .next t ∧ t.pc = s.stack[s.sp % 12] ∧
      t.sp = (s.sp + s.params.spMax) % (s.params.spMax + 1)) ∧
    ∀ (nnn : Addr) (t : State), s.sp ≤ s.params.spMax → exec (.call nnn) s = .next t →
      ∃ u, exec .ret t = .next u ∧ u.sp = s.sp ∧ u.pc = t.stack[t.sp % 12]

/-- R101. -/
def Obligations.JpWritesPc : Prop :=
  ∀ nnn : Addr, decodeWord (0b0001#4 ++ nnn) = .jp nnn ∧
  ∀ s : State, ∃ t, exec (.jp nnn) s = .next t ∧ t.pc.toNat = nnn.toNat ∧ Frame s t (· = .pc)

/-- R102: the sum is not masked. -/
def Obligations.JpV0AddsV0 : Prop :=
  ∀ nnn : Addr, decodeWord (0b1011#4 ++ nnn) = .jpV0 nnn ∧
  ∀ s : State, ∃ t, exec (.jpV0 nnn) s = .next t ∧
    t.pc.toNat = nnn.toNat + (s.getV 0).toNat ∧ Frame s t (· = .pc)

/-- Derived from R103, for both values of CALL_LINK_MODE (its default is the spec's decision D4): SP goes round the
ring before the write, the link goes to the new top at the width of an entry, and PC to nnn. The clauses for an SP range
other than 0 to 11 (SP counts in its range, the entry is SP mod 12) and for an entry width other than 16 (the low bits of
the link are kept) are the model's own choice (log 27), not R103's. -/
def Obligations.CallPushesTheLink : Prop :=
  ∀ nnn : Addr, decodeWord (0b0010#4 ++ nnn) = .call nnn ∧
  ∀ s : State, ∃ t, exec (.call nnn) s = .next t ∧
    (s.params.spMax = 11 → t.sp = (s.sp + 1) % 12) ∧
    t.sp = (s.sp + 1) % (s.params.spMax + 1) ∧ t.pc.toNat = nnn.toNat ∧
    (s.params.callLinkMode = .returnAddress →
      t.stack[t.sp % 12].toNat = s.pc.toNat % 2 ^ s.params.stackEntryWidth ∧
      (16 ≤ s.params.stackEntryWidth → t.stack[t.sp % 12] = s.pc)) ∧
    (s.params.callLinkMode = .capacityConstant →
      t.stack[t.sp % 12].toNat = 0x000C % 2 ^ s.params.stackEntryWidth ∧
      (16 ≤ s.params.stackEntryWidth → t.stack[t.sp % 12] = 0x000C)) ∧
    Frame s t (fun q => q = .pc ∨ q = .sp ∨ q = .stack (stackSlot t.sp))

/-- Derived from R104: with return addresses pushed, up to 12 nested calls are undone by as many returns, and of 13
the innermost 12; the 13th return goes where the 13th call came from.
The ring is R27's, with SP in its range 0 to 11, and an entry holds a whole return address. -/
def Obligations.NestedCallsReturn : Prop :=
  ∀ (s : State) (calls : List (Word × Addr)), s.params.callLinkMode = .returnAddress →
    s.params.spMax = 11 → 16 ≤ s.params.stackEntryWidth → s.sp ≤ 11 →
    (calls.length ≤ 12 → ∃ t u, nestedCalls calls s = some t ∧
      returns calls.length t = some ((calls.map Prod.fst).reverse, u) ∧ u.sp = s.sp) ∧
    (calls.length = 13 → ∃ t u, nestedCalls calls s = some t ∧
      returns 13 t = some (((calls.map Prod.fst).reverse.take 12) ++ ((calls.map Prod.fst).drop 12), u))

/-- R105 and R106. -/
def Obligations.ImmediateSkips : Prop :=
  ∀ (x : Nibble) (kk : Byte),
    decodeWord (0b0011#4 ++ x ++ kk) = .seImm x kk ∧ decodeWord (0b0100#4 ++ x ++ kk) = .sneImm x kk ∧
    ∀ s : State,
      (∃ t, exec (.seImm x kk) s = .next t ∧ Frame s t (· = .pc) ∧
        t.pc.toNat = if s.getV x = kk then (s.pc.toNat + 2) % 65536 else s.pc.toNat) ∧
      (∃ t, exec (.sneImm x kk) s = .next t ∧ Frame s t (· = .pc) ∧
        t.pc.toNat = if s.getV x ≠ kk then (s.pc.toNat + 2) % 65536 else s.pc.toNat)

/-- R107 and R108. -/
def Obligations.RegisterSkips : Prop :=
  ∀ x y : Nibble,
    decodeWord (0b0101#4 ++ x ++ y ++ 0b0000#4) = .seReg x y ∧
    decodeWord (0b1001#4 ++ x ++ y ++ 0b0000#4) = .sneReg x y ∧
    (∀ p : Nibble, p ≠ 0 →
      (∃ w, decodeWord (0b0101#4 ++ x ++ y ++ p) = .nopUnmatched w) ∧
      ∃ w, decodeWord (0b1001#4 ++ x ++ y ++ p) = .nopUnmatched w) ∧
    ∀ s : State,
      (∃ t, exec (.seReg x y) s = .next t ∧ Frame s t (· = .pc) ∧
        t.pc.toNat = if s.getV x = s.getV y then (s.pc.toNat + 2) % 65536 else s.pc.toNat) ∧
      (∃ t, exec (.sneReg x y) s = .next t ∧ Frame s t (· = .pc) ∧
        t.pc.toNat = if s.getV x ≠ s.getV y then (s.pc.toNat + 2) % 65536 else s.pc.toNat)

/-- Derived from R251 (a final state is the spec's decision D22): the step of a final state is the identity on the
whole state. -/
def Obligations.FinalStatesStepToThemselves : Prop :=
  ∀ s : State, s.waiting = false → s.pc.toNat ≤ 0x0FFF →
    (s.memRead s.pc.toNat).toNat * 256 + (s.memRead (s.pc.toNat + 1)).toNat = 0x1000 + s.pc.toNat →
    s.isFinal = true ∧ step s = .next s

/-! ### Register loads and ALU -/

/-- R122, R123 and R124: VF changes only as the destination. -/
def Obligations.LoadsAndAddImmediate : Prop :=
  (∀ (x : Nibble) (kk : Byte),
    decodeWord (0b0110#4 ++ x ++ kk) = .ldImm x kk ∧ decodeWord (0b0111#4 ++ x ++ kk) = .addImm x kk ∧
    ∀ s : State,
      (∃ t, exec (.ldImm x kk) s = .next t ∧ t.getV x = kk ∧ Frame s t (· = .v x)) ∧
      (∃ t, exec (.addImm x kk) s = .next t ∧
        (t.getV x).toNat = ((s.getV x).toNat + kk.toNat) % 256 ∧ Frame s t (· = .v x))) ∧
  ∀ x y : Nibble, decodeWord (0b1000#4 ++ x ++ y ++ 0b0000#4) = .ldReg x y ∧
    ∀ s : State, ∃ t, exec (.ldReg x y) s = .next t ∧ t.getV x = s.getV y ∧ Frame s t (· = .v x)

/-- R125, R126 and R127, bit by bit; VF is not changed unless it is the destination. -/
def Obligations.BitwiseOperations : Prop :=
  ∀ x y : Nibble,
    decodeWord (0b1000#4 ++ x ++ y ++ 0b0001#4) = .or x y ∧
    decodeWord (0b1000#4 ++ x ++ y ++ 0b0010#4) = .and x y ∧
    decodeWord (0b1000#4 ++ x ++ y ++ 0b0011#4) = .xor x y ∧
    ∀ s : State,
      (∃ t, exec (.or x y) s = .next t ∧ Frame s t (· = .v x) ∧
        ∀ k, k < 8 → (t.getV x).getLsbD k = ((s.getV x).getLsbD k || (s.getV y).getLsbD k)) ∧
      (∃ t, exec (.and x y) s = .next t ∧ Frame s t (· = .v x) ∧
        ∀ k, k < 8 → (t.getV x).getLsbD k = ((s.getV x).getLsbD k && (s.getV y).getLsbD k)) ∧
      (∃ t, exec (.xor x y) s = .next t ∧ Frame s t (· = .v x) ∧
        ∀ k, k < 8 → (t.getV x).getLsbD k = ((s.getV x).getLsbD k ^^ (s.getV y).getLsbD k))

/-- R128 in the order of R121: the sum mod 256 in Vx, and the carry in VF unless VF is the destination. -/
def Obligations.AddWithCarry : Prop :=
  ∀ x y : Nibble, decodeWord (0b1000#4 ++ x ++ y ++ 0b0100#4) = .addReg x y ∧
  ∀ s : State, ∃ t, exec (.addReg x y) s = .next t ∧
    (t.getV x).toNat = ((s.getV x).toNat + (s.getV y).toNat) % 256 ∧
    (x ≠ 15 → (t.getV 15).toNat = if 255 < (s.getV x).toNat + (s.getV y).toNat then 1 else 0) ∧
    Frame s t (fun q => q = .v x ∨ q = .v 15)

/-- R129 and R130 in the order of R121: the difference mod 256 in Vx, and NOT borrow in VF unless VF is the
destination. -/
def Obligations.SubtractWithNotBorrow : Prop :=
  ∀ x y : Nibble,
    decodeWord (0b1000#4 ++ x ++ y ++ 0b0101#4) = .sub x y ∧
    decodeWord (0b1000#4 ++ x ++ y ++ 0b0111#4) = .subn x y ∧
    ∀ s : State,
      (∃ t, exec (.sub x y) s = .next t ∧
        (t.getV x).toNat = ((s.getV x).toNat + 256 - (s.getV y).toNat) % 256 ∧
        (x ≠ 15 → (t.getV 15).toNat = if (s.getV y).toNat ≤ (s.getV x).toNat then 1 else 0) ∧
        Frame s t (fun q => q = .v x ∨ q = .v 15)) ∧
      (∃ t, exec (.subn x y) s = .next t ∧
        (t.getV x).toNat = ((s.getV y).toNat + 256 - (s.getV x).toNat) % 256 ∧
        (x ≠ 15 → (t.getV 15).toNat = if (s.getV x).toNat ≤ (s.getV y).toNat then 1 else 0) ∧
        Frame s t (fun q => q = .v x ∨ q = .v 15))

/-- R131 and R132 in the order of R121: Vy shifted by one into Vx, and the bit shifted out in VF unless VF is the
destination. -/
def Obligations.ShiftsOfVy : Prop :=
  ∀ x y : Nibble,
    decodeWord (0b1000#4 ++ x ++ y ++ 0b0110#4) = .shr x y ∧
    decodeWord (0b1000#4 ++ x ++ y ++ 0b1110#4) = .shl x y ∧
    ∀ s : State,
      (∃ t, exec (.shr x y) s = .next t ∧ (t.getV x).toNat = (s.getV y).toNat / 2 ∧
        (x ≠ 15 → (t.getV 15).toNat = (s.getV y).toNat % 2) ∧
        Frame s t (fun q => q = .v x ∨ q = .v 15)) ∧
      (∃ t, exec (.shl x y) s = .next t ∧ (t.getV x).toNat = (s.getV y).toNat * 2 % 256 ∧
        (x ≠ 15 → (t.getV 15).toNat = (s.getV y).toNat / 128) ∧
        Frame s t (fun q => q = .v x ∨ q = .v 15))

/-- Derived from R133 (the free draw is the spec's decision D12, log 2): Vx is the free byte masked by kk, one byte per
execution; where kk has a 0 bit, so has Vx. -/
def Obligations.RandomIsMasked : Prop :=
  ∀ (x : Nibble) (kk : Byte), decodeWord (0b1100#4 ++ x ++ kk) = .rnd x kk ∧
  ∀ s : State, ∃ t, exec (.rnd x kk) s = .next t ∧
    t.getV x = Config.randomByte s.draws &&& kk ∧ t.draws = s.draws + 1 ∧
    (∀ k, kk.getLsbD k = false → (t.getV x).getLsbD k = false) ∧
    Frame s t (fun q => q = .v x ∨ q = .draws)

/-! ### Display -/

/-- R150. -/
def Obligations.ClsClearsEveryPixel : Prop :=
  decodeWord 0b0000000011100000 = .cls ∧
  ∀ s : State, ∃ t, exec .cls s = .next t ∧ (∀ row col, t.pixel row col = false) ∧
    Frame s t (fun q => ∃ row col, q = .pixel row col)

/-- Derived from R151 (that column 0 is the most significant bit is the spec's decision D7): the pixels the sprite
covers are inverted, no other part but VF changes, and VF says whether one of them was lit. -/
def Obligations.DrwInvertsTheCoveredPixels : Prop :=
  ∀ x y n : Nibble, decodeWord (0b1101#4 ++ x ++ y ++ n) = .drw x y n ∧
  ∀ s : State, ∃ t, exec (.drw x y n) s = .next t ∧
    (∀ row col, s.spriteCovers x y n row col → t.pixel row col = !s.pixel row col) ∧
    ((∃ row col, s.spriteCovers x y n row col ∧ s.pixel row col = true) → t.getV 15 = 1) ∧
    ((¬ ∃ row col, s.spriteCovers x y n row col ∧ s.pixel row col = true) → t.getV 15 = 0) ∧
    Frame s t (fun q => q = .v 15 ∨ ∃ row col, q = .pixel row col ∧ s.spriteCovers x y n row col)

/-- Derived from R151, in the words of R152: the same sprite drawn twice at one place restores the display; the second
draw reports VF = 1 exactly when a covered pixel was dark before the first, which on a clear display is when some row
drawn has a bit set; and on a clear display a draw reports VF = 0.
Between the draws anything may change but the display, the sprite's bytes, and the coordinates.
R152 (a) says the second draw's VF without the condition on the display: see `SecondDrawAlwaysReportsSetBits`. -/
def Obligations.DrawingTwiceRestores : Prop :=
  (∀ (x y n x' y' : Nibble) (s t u v : State), exec (.drw x y n) s = .next t →
    (∀ row col, u.pixel row col = t.pixel row col) →
    u.getV x' = s.getV x → u.getV y' = s.getV y →
    (∀ r, r < n.toNat → u.memRead (u.i.toNat + r) = s.memRead (s.i.toNat + r)) →
    exec (.drw x' y' n) u = .next v →
    (∀ row col, v.pixel row col = s.pixel row col) ∧
    (v.getV 15 = 1 ↔ ∃ row col, s.spriteCovers x y n row col ∧ s.pixel row col = false) ∧
    ((∀ row col, s.pixel row col = false) →
      (v.getV 15 = 1 ↔ ∃ r, r < n.toNat ∧ s.memRead (s.i.toNat + r) ≠ 0))) ∧
  ∀ (x y n : Nibble) (s t : State), (∀ row col, s.pixel row col = false) →
    exec (.drw x y n) s = .next t → t.getV 15 = 0

/-- Expected to FAIL: R152 (a) taken literally, "the second draw reports VF = 1 if and only if the sprite has at least one
bit set among the rows drawn", for every display.
R151 refutes it: on a display that is all lit the first draw turns the covered pixels off, the second turns none off
and reports VF = 0 (log 26). -/
def Obligations.SecondDrawAlwaysReportsSetBits : Prop :=
  ∀ (x y n : Nibble) (s t v : State), x ≠ 15 → y ≠ 15 →
    exec (.drw x y n) s = .next t → exec (.drw x y n) t = .next v →
    (v.getV 15 = 1 ↔ ∃ r, r < n.toNat ∧ s.memRead (s.i.toNat + r) ≠ 0)

/-- R154. -/
def Obligations.LdFPointsAtTheGlyph : Prop :=
  ∀ x : Nibble, decodeWord (0b1111#4 ++ x ++ 0b00101001#8) = .ldF x ∧
  ∀ s : State, ∃ t, exec (.ldF x) s = .next t ∧
    t.i.toNat = s.params.fontBase.toNat + 5 * ((s.getV x).toNat % 16) ∧ Frame s t (· = .i)

/-! ### Timers and keypad -/

/-- R170, R171 and R172. -/
def Obligations.TimerMoves : Prop :=
  ∀ x : Nibble,
    decodeWord (0b1111#4 ++ x ++ 0b00000111#8) = .ldVxDt x ∧
    decodeWord (0b1111#4 ++ x ++ 0b00010101#8) = .ldDtVx x ∧
    decodeWord (0b1111#4 ++ x ++ 0b00011000#8) = .ldStVx x ∧
    ∀ s : State,
      (∃ t, exec (.ldVxDt x) s = .next t ∧ t.getV x = s.dt ∧ Frame s t (· = .v x)) ∧
      (∃ t, exec (.ldDtVx x) s = .next t ∧ t.dt = s.getV x ∧ Frame s t (· = .dt)) ∧
      (∃ t, exec (.ldStVx x) s = .next t ∧ t.st = s.getV x ∧ Frame s t (· = .st))

/-- R173 and R174: the key is named by the low nibble of Vx. -/
def Obligations.KeySkips : Prop :=
  ∀ x : Nibble,
    decodeWord (0b1110#4 ++ x ++ 0b10011110#8) = .skp x ∧
    decodeWord (0b1110#4 ++ x ++ 0b10100001#8) = .sknp x ∧
    ∀ (s : State) (k : Nibble), k.toNat = (s.getV x).toNat % 16 →
      (∃ t, exec (.skp x) s = .next t ∧ Frame s t (· = .pc) ∧
        t.pc.toNat = if s.key k = true then (s.pc.toNat + 2) % 65536 else s.pc.toNat) ∧
      (∃ t, exec (.sknp x) s = .next t ∧ Frame s t (· = .pc) ∧
        t.pc.toNat = if s.key k = false then (s.pc.toNat + 2) % 65536 else s.pc.toNat)

/-- Derived from R175 (that a waiting core holds is the spec's decision D25): the flag becomes 0x80 | x and nothing else
changes, and the next step changes nothing, whatever keys are down. -/
def Obligations.LdVxKEntersTheWait : Prop :=
  ∀ x : Nibble, decodeWord (0b1111#4 ++ x ++ 0b00001010#8) = .ldVxK x ∧
  ∀ s : State, ∃ t, exec (.ldVxK x) s = .next t ∧ t.wk.toNat = 128 + x.toNat ∧
    step t = .next t ∧ Frame s t (· = .wk)

/-- Derived from R226 and R227 (timers in a wait are the spec's decision D15): the wait is entered only by Fx0A and left only by a key-down event, every piece of state survives the steps
made in it, and DT and ST go on counting through it. -/
def Obligations.OnlyKeyDownEndsTheWait : Prop :=
  ∀ (e : Event) (s t : State), deliver e s = .next t →
    (s.waiting = false → t.waiting = true → e = .step ∧ ∃ x, s.fetchedInstr = .ldVxK x) ∧
    (s.waiting = true → t.waiting = false → ∃ k, e = .keyDown k) ∧
    (s.waiting = true → e = .step → t = s) ∧
    (∀ n, e = .tick n → t.dt.toNat = s.dt.toNat - n ∧ t.st.toNat = s.st.toNat - n)

/-- Derived from R176 and R215 (the spec's decisions D16, D27 and D28): a key-down sets the key's bit in every case, and
ends a wait by writing the key's index to the register DEST names and clearing bit 7 of the flag only. -/
def Obligations.KeyDownSetsTheKeyAndEndsTheWait : Prop :=
  ∀ (s : State) (k : Nibble), ∃ t, deliver (.keyDown k) s = .next t ∧ t.key k = true ∧
    (s.wk.toNat < 128 → Frame s t (· = .key k)) ∧
    ∀ d : Nibble, s.wk.toNat = 128 + d.toNat →
      (t.getV d).toNat = k.toNat ∧ t.wk.toNat = d.toNat ∧
      Frame s t (fun q => q = .key k ∨ q = .v d ∨ q = .wk)

/-- R216. -/
def Obligations.KeyUpClearsTheKey : Prop :=
  ∀ (s : State) (k : Nibble), ∃ t, deliver (.keyUp k) s = .next t ∧ t.key k = false ∧ Frame s t (· = .key k)

/-- Derived from R217 and R227 (the spec's decisions D15 and D17): both timers fall by n and stop at 0, waiting or not,
and `tick(n)` is n events `tick(1)` in a row. -/
def Obligations.TickCountsTheTimersDown : Prop :=
  ∀ (s : State) (n : Nat), ∃ t, deliver (.tick n) s = .next t ∧
    t.dt.toNat = s.dt.toNat - n ∧ t.st.toNat = s.st.toNat - n ∧
    Frame s t (fun q => q = .dt ∨ q = .st) ∧
    run (List.replicate n (.tick 1)) s = .next t

/-! ### Load and render -/

/-- R60: byte i of the image goes to (o + i) mod 4096 in increasing order, so the last byte for an address stays there;
every other byte and all else keep their value; and the offset of the load before a run is LOAD_ORIGIN. -/
def Obligations.LoadCopiesTheImageWithWrap : Prop :=
  (∀ (p : Config.Params) (image : List Byte),
    boot p image [] = deliver (.load p.loadOrigin image) (State.resetWith p)) ∧
  ∀ (s : State) (o : Addr) (image : List Byte), ∃ t, deliver (.load o image) s = .next t ∧
    (∀ k (h : k < image.length),
      (∀ j, k < j → j < image.length → (o.toNat + j) % 4096 ≠ (o.toNat + k) % 4096) →
      t.memRead (o.toNat + k) = image[k]) ∧
    Frame s t (fun q => ∃ k, k < image.length ∧ q = .mem (BitVec.ofNat 12 (o.toNat + k)))

/-- Derived from R218 (index order and top byte are the spec's decision D25, log 21) and R32 (the packing of the display
buffer is the spec's decision D8, log 8): render changes nothing and returns 2048 colours, row-major, that of (row, col)
given by bit 7 - col mod 8 of byte (row * 64 + col) / 8, which is the pixel the draws write. -/
def Obligations.RenderIsRowMajor : Prop :=
  ∀ s : State, deliver .render s = .next s ∧ s.frame.length = 2048 ∧
    ∀ (row : Screen.Row) (col : Screen.Col),
      s.frame[row.val * 64 + col.val]? = some (if s.pixel row col then 0x00FFFFFF else 0x00000000) ∧
      s.frame[row.val * 64 + col.val]? =
        some (if (s.disp[(row.val * 64 + col.val) / 8]'(by omega)).getLsbD (7 - col.val % 8) then 0x00FFFFFF
          else 0x00000000)

/-! ### Index register and memory transfers -/

/-- R190. -/
def Obligations.LdISetsI : Prop :=
  ∀ nnn : Addr, decodeWord (0b1010#4 ++ nnn) = .ldI nnn ∧
  ∀ s : State, ∃ t, exec (.ldI nnn) s = .next t ∧ t.i.toNat = nnn.toNat ∧ Frame s t (· = .i)

/-- R191: I is masked before the sum, bit 12 of the sum goes to VF and the low 12 bits to I. -/
def Obligations.AddIWithOverflow : Prop :=
  ∀ x : Nibble, decodeWord (0b1111#4 ++ x ++ 0b00011110#8) = .addI x ∧
  ∀ s : State, ∃ t, exec (.addI x) s = .next t ∧
    t.i.toNat = (s.i.toNat % 4096 + (s.getV x).toNat) % 4096 ∧
    (t.getV 15).toNat = (if 4096 ≤ s.i.toNat % 4096 + (s.getV x).toNat then 1 else 0) ∧
    Frame s t (fun q => q = .i ∨ q = .v 15)

/-- R192: hundreds, tens and units at I, I + 1 and I + 2, each address wrapped on its own. -/
def Obligations.BcdStoresTheDigits : Prop :=
  ∀ x : Nibble, decodeWord (0b1111#4 ++ x ++ 0b00110011#8) = .bcd x ∧
  ∀ s : State, ∃ t, exec (.bcd x) s = .next t ∧
    (t.memRead s.i.toNat).toNat = (s.getV x).toNat / 100 ∧
    (t.memRead (s.i.toNat + 1)).toNat = (s.getV x).toNat / 10 % 10 ∧
    (t.memRead (s.i.toNat + 2)).toNat = (s.getV x).toNat % 10 ∧
    Frame s t (fun q => ∃ k, k < 3 ∧ q = s.cell k)

/-- R193: V0 to Vx go to I upward, and I ends at I + x + 1 mod 2^16. -/
def Obligations.DumpStoresV0ToVx : Prop :=
  ∀ x : Nibble, decodeWord (0b1111#4 ++ x ++ 0b01010101#8) = .dump x ∧
  ∀ s : State, ∃ t, exec (.dump x) s = .next t ∧
    (∀ k : Nibble, k ≤ x → t.memRead (s.i.toNat + k.toNat) = s.getV k) ∧
    t.i.toNat = (s.i.toNat + x.toNat + 1) % 65536 ∧
    Frame s t (fun q => q = .i ∨ ∃ k, k ≤ x.toNat ∧ q = s.cell k)

/-- R194: V0 to Vx come from I upward, I ends at I + x + 1 mod 2^16, and the registers above Vx are unchanged. -/
def Obligations.LoadFillsV0ToVx : Prop :=
  ∀ x : Nibble, decodeWord (0b1111#4 ++ x ++ 0b01100101#8) = .load x ∧
  ∀ s : State, ∃ t, exec (.load x) s = .next t ∧
    (∀ k : Nibble, k ≤ x → t.getV k = s.memRead (s.i.toNat + k.toNat)) ∧
    t.i.toNat = (s.i.toNat + x.toNat + 1) % 65536 ∧
    Frame s t (fun q => q = .i ∨ ∃ r : Nibble, r ≤ x ∧ q = .v r)

/-- Derived from R195: a store, then a load from the same I0 with the stored bytes untouched between, gives V0 to Vx
their old values back, and each advances I by x + 1. -/
def Obligations.DumpThenLoadRoundTrips : Prop :=
  ∀ (x : Nibble) (s t u : State), s.i.toNat ≤ 0x0FFF → exec (.dump x) s = .next t →
    u.i = s.i → (∀ k, k ≤ x.toNat → u.memRead (s.i.toNat + k) = t.memRead (s.i.toNat + k)) →
    ∃ v, exec (.load x) u = .next v ∧ (∀ k : Nibble, k ≤ x → v.getV k = s.getV k) ∧
      t.i.toNat = s.i.toNat + x.toNat + 1 ∧ v.i.toNat = s.i.toNat + x.toNat + 1

/-! ### Unmatched opcodes -/

/-- R76 with R75's no-op: an unmatched opcode changes nothing under the policy `nop`, and is refused under `refuse`. -/
def Obligations.UnmatchedOpcodesDoNothing : Prop :=
  ∀ w : Word, isUnmatched w = true → decodeWord w = .nopUnmatched w ∧
  ∀ s : State,
    (s.params.unlistedPolicy = .nop → exec (.nopUnmatched w) s = .next s) ∧
    (s.params.unlistedPolicy = .refuse → exec (.nopUnmatched w) s = .refused (.unlistedOpcode w))
end

