-- ==== Sys2Proof/Laws/Decode.lean ====
section
/-! SUPPORT. The fields of an encoded word, and the fields of any word put together again. -/

namespace Sys2Proof

theorem toNat_append_eq {m n : Nat} (a : BitVec m) (b : BitVec n) :
    (a ++ b).toNat = a.toNat * 2 ^ n + b.toNat := by
  rw [BitVec.toNat_append, Nat.shiftLeft_eq, mul_comm, ← Nat.two_pow_add_eq_or_of_lt b.isLt]

theorem fieldsOf_nat (w : Word) :
    (fieldsOf w).u.toNat = w.toNat / 4096 ∧ (fieldsOf w).x.toNat = w.toNat / 256 % 16 ∧
    (fieldsOf w).y.toNat = w.toNat / 16 % 16 ∧ (fieldsOf w).p.toNat = w.toNat % 16 ∧
    (fieldsOf w).kk.toNat = w.toNat % 256 ∧ (fieldsOf w).nnn.toNat = w.toNat % 4096 ∧ (fieldsOf w).op = w := by
  have := w.isLt
  refine ⟨?_, ?_, ?_, ?_, ?_, ?_, rfl⟩ <;>
    simp only [fieldsOf, BitVec.extractLsb'_toNat, Nat.shiftRight_eq_div_pow] <;> omega

theorem encNnn_toNat (u : Nibble) (nnn : Addr) : (encNnn u nnn).toNat = u.toNat * 4096 + nnn.toNat :=
  toNat_append_eq u nnn

theorem encXkk_toNat (u x : Nibble) (kk : Byte) :
    (encXkk u x kk).toNat = (u.toNat * 16 + x.toNat) * 256 + kk.toNat := by
  have := toNat_append_eq (u ++ x) kk
  rw [toNat_append_eq u x] at this
  exact this

theorem encXyp_toNat (u x y p : Nibble) :
    (encXyp u x y p).toNat = ((u.toNat * 16 + x.toNat) * 16 + y.toNat) * 16 + p.toNat := by
  have := toNat_append_eq (u ++ x ++ y) p
  rw [toNat_append_eq (u ++ x) y, toNat_append_eq u x] at this
  exact this

@[simp] theorem fieldsOf_encNnn (u : Nibble) (nnn : Addr) :
    (fieldsOf (encNnn u nnn)).u = u ∧ (fieldsOf (encNnn u nnn)).nnn = nnn := by
  have h := fieldsOf_nat (encNnn u nnn)
  rw [encNnn_toNat] at h
  have := u.isLt; have := nnn.isLt
  constructor <;> apply BitVec.eq_of_toNat_eq <;> omega

@[simp] theorem fieldsOf_encXkk (u x : Nibble) (kk : Byte) :
    (fieldsOf (encXkk u x kk)).u = u ∧ (fieldsOf (encXkk u x kk)).x = x ∧
    (fieldsOf (encXkk u x kk)).kk = kk := by
  have h := fieldsOf_nat (encXkk u x kk)
  rw [encXkk_toNat] at h
  have := u.isLt; have := x.isLt; have := kk.isLt
  refine ⟨?_, ?_, ?_⟩ <;> apply BitVec.eq_of_toNat_eq <;> omega

@[simp] theorem fieldsOf_encXyp (u x y p : Nibble) :
    (fieldsOf (encXyp u x y p)).u = u ∧ (fieldsOf (encXyp u x y p)).x = x ∧
    (fieldsOf (encXyp u x y p)).y = y ∧ (fieldsOf (encXyp u x y p)).p = p := by
  have h := fieldsOf_nat (encXyp u x y p)
  rw [encXyp_toNat] at h
  have := u.isLt; have := x.isLt; have := y.isLt; have := p.isLt
  refine ⟨?_, ?_, ?_, ?_⟩ <;> apply BitVec.eq_of_toNat_eq <;> omega

/-- The word is its class and its 12-bit field. -/
theorem encNnn_fieldsOf (w : Word) : encNnn (fieldsOf w).u (fieldsOf w).nnn = w := by
  have h := fieldsOf_nat w
  apply BitVec.eq_of_toNat_eq
  rw [encNnn_toNat]
  omega

theorem encXkk_fieldsOf (w : Word) : encXkk (fieldsOf w).u (fieldsOf w).x (fieldsOf w).kk = w := by
  have h := fieldsOf_nat w
  apply BitVec.eq_of_toNat_eq
  rw [encXkk_toNat]
  omega

theorem encXyp_fieldsOf (w : Word) :
    encXyp (fieldsOf w).u (fieldsOf w).x (fieldsOf w).y (fieldsOf w).p = w := by
  have h := fieldsOf_nat w
  apply BitVec.eq_of_toNat_eq
  rw [encXyp_toNat]
  omega

/-- The two bytes of a word, put together again (R53). -/
theorem wordOfBytes_bytesOfWord (w : Word) : wordOfBytes (bytesOfWord w).1 (bytesOfWord w).2 = w := by
  have := w.isLt
  apply BitVec.eq_of_toNat_eq
  have h := toNat_append_eq (bytesOfWord w).1 (bytesOfWord w).2
  refine h.trans ?_
  simp only [bytesOfWord, BitVec.extractLsb'_toNat, Nat.shiftRight_eq_div_pow]
  omega

theorem bytesOfWord_wordOfBytes (hi lo : Byte) : bytesOfWord (wordOfBytes hi lo) = (hi, lo) := by
  have h : (wordOfBytes hi lo).toNat = hi.toNat * 256 + lo.toNat := toNat_append_eq hi lo
  have := hi.isLt; have := lo.isLt
  refine Prod.ext ?_ ?_ <;> apply BitVec.eq_of_toNat_eq <;>
    simp only [bytesOfWord, BitVec.extractLsb'_toNat, Nat.shiftRight_eq_div_pow, h] <;> omega

theorem wordOfBytes_toNat (hi lo : Byte) : (wordOfBytes hi lo).toNat = hi.toNat * 256 + lo.toNat :=
  toNat_append_eq hi lo

theorem decodeBytes_encodeBytes (i : Instr) (rest : List Byte) :
    decodeBytes (encodeBytes i ++ rest) = .ok (decodeWord (encode i), rest) := by
  simp [encodeBytes, decodeBytes, wordOfBytes_bytesOfWord]

/-- The decoder on the fields of a word. -/
theorem dispatch_nil (f : Fields) : dispatch [] f = .nopUnmatched f.op := rfl

theorem dispatch_cons (r : Row) (rest : List Row) (f : Fields) :
    dispatch (r :: rest) f = if r.holds f then r.instr f else dispatch rest f := rfl

/-- Everything dispatch can do: it runs a row of the table that holds, or no row holds. -/
theorem dispatch_cases (rows : List Row) (f : Fields) :
    (∃ r ∈ rows, r.holds f = true ∧ dispatch rows f = r.instr f) ∨
      ((∀ r ∈ rows, r.holds f = false) ∧ dispatch rows f = .nopUnmatched f.op) := by
  induction rows with
  | nil => exact .inr ⟨by simp, rfl⟩
  | cons r rest ih =>
    rw [dispatch_cons]
    cases h : r.holds f with
    | true => exact .inl ⟨r, by simp, h, by simp⟩
    | false =>
      rcases ih with ⟨q, hq, hh, he⟩ | ⟨hn, he⟩
      · exact .inl ⟨q, by simp [hq], hh, by simpa using he⟩
      · exact .inr ⟨by simpa [h] using hn, by simpa using he⟩

theorem Row.holds_iff (r : Row) (f : Fields) : r.holds f = true ↔ f.u = r.u ∧ r.sub.holds f = true := by
  simp [Row.holds]

/-- A class is one of sixteen. -/
theorem nibble_cases (u : Nibble) :
    u = 0 ∨ u = 1 ∨ u = 2 ∨ u = 3 ∨ u = 4 ∨ u = 5 ∨ u = 6 ∨ u = 7 ∨ u = 8 ∨ u = 9 ∨ u = 10 ∨ u = 11 ∨ u = 12 ∨
      u = 13 ∨ u = 14 ∨ u = 15 := by
  revert u; decide

/-- A word no row of the dispatch table holds of is in R75's table. -/
theorem unmatched_of_no_row (w : Word) (h : ∀ r ∈ dispatchTable, r.holds (fieldsOf w) = false) :
    isUnmatched w = true := by
  obtain ⟨fu, -, -, fp, fk, fn, fop⟩ := fieldsOf_nat w
  unfold isUnmatched
  simp only [← fu, ← fp, ← fk, ← fn]
  generalize fieldsOf w = f at *
  simp only [dispatchTable, List.cons_append, List.nil_append, List.forall_mem_cons, Row.holds, SubTest.holds] at h
  rcases nibble_cases f.u with e | e | e | e | e | e | e | e | e | e | e | e | e | e | e | e <;>
    simp [e] at h ⊢
  · simpa [← BitVec.toNat_inj] using h
  · simpa [← BitVec.toNat_inj] using h
  · have := f.p.isLt
    simp [← BitVec.toNat_inj] at h; omega
  · simpa [← BitVec.toNat_inj] using h
  · simpa [← BitVec.toNat_inj] using h
  · simp [← BitVec.toNat_inj] at h; omega

/-- Every row, where it holds of a word, gives a well-formed instruction encoded by that word. -/
theorem rows_sound (w : Word) : ∀ r ∈ dispatchTable, r.holds (fieldsOf w) = true →
    (r.instr (fieldsOf w)).wf = true ∧ encode (r.instr (fieldsOf w)) = w := by
  have nN : ∀ {u}, (fieldsOf w).u = u → encNnn u (fieldsOf w).nnn = w := fun h => h ▸ encNnn_fieldsOf w
  have nF : ∀ {u a}, (fieldsOf w).u = u → (fieldsOf w).nnn = a → encNnn u a = w :=
    fun h h' => h ▸ h' ▸ encNnn_fieldsOf w
  have nX : ∀ {u}, (fieldsOf w).u = u → encXkk u (fieldsOf w).x (fieldsOf w).kk = w :=
    fun h => h ▸ encXkk_fieldsOf w
  have nx : ∀ {u k}, (fieldsOf w).u = u → (fieldsOf w).kk = k → encXkk u (fieldsOf w).x k = w :=
    fun h h' => h ▸ h' ▸ encXkk_fieldsOf w
  have nY : ∀ {u}, (fieldsOf w).u = u →
      encXyp u (fieldsOf w).x (fieldsOf w).y (fieldsOf w).p = w := fun h => h ▸ encXyp_fieldsOf w
  have ny : ∀ {u p}, (fieldsOf w).u = u → (fieldsOf w).p = p →
      encXyp u (fieldsOf w).x (fieldsOf w).y p = w := fun h h' => h ▸ h' ▸ encXyp_fieldsOf w
  simp only [dispatchTable, List.cons_append, List.nil_append, List.forall_mem_cons, Row.holds_iff,
    SubTest.holds, beq_iff_eq, and_true]
  exact ⟨fun h => ⟨rfl, nF h.1 h.2⟩,
    fun h => ⟨rfl, nF h.1 h.2⟩,
    fun h => ⟨rfl, nN h⟩,
    fun h => ⟨rfl, nN h⟩,
    fun h => ⟨rfl, nN h⟩,
    fun h => ⟨rfl, nx h.1 h.2⟩,
    fun h => ⟨rfl, nX h⟩,
    fun h => ⟨rfl, ny h.1 h.2⟩,
    fun h => ⟨rfl, nX h⟩,
    fun h => ⟨rfl, ny h.1 h.2⟩,
    fun h => ⟨rfl, ny h.1 h.2⟩,
    fun h => ⟨rfl, ny h.1 h.2⟩,
    fun h => ⟨rfl, ny h.1 h.2⟩,
    fun h => ⟨rfl, ny h.1 h.2⟩,
    fun h => ⟨rfl, ny h.1 h.2⟩,
    fun h => ⟨rfl, ny h.1 h.2⟩,
    fun h => ⟨rfl, ny h.1 h.2⟩,
    fun h => ⟨rfl, nX h⟩,
    fun h => ⟨rfl, nY h⟩,
    fun h => ⟨rfl, nx h.1 h.2⟩,
    fun h => ⟨rfl, nx h.1 h.2⟩,
    fun h => ⟨rfl, nx h.1 h.2⟩,
    fun h => ⟨rfl, nx h.1 h.2⟩,
    fun h => ⟨rfl, nN h⟩,
    fun h => ⟨rfl, nx h.1 h.2⟩,
    fun h => ⟨rfl, nX h⟩,
    fun h => ⟨rfl, nX h⟩,
    fun h => ⟨rfl, ny h.1 h.2⟩,
    fun h => ⟨rfl, ny h.1 h.2⟩,
    fun h => ⟨rfl, nx h.1 h.2⟩,
    fun h => ⟨rfl, nx h.1 h.2⟩,
    fun h => ⟨rfl, nx h.1 h.2⟩,
    fun h => ⟨rfl, nx h.1 h.2⟩,
    fun h => ⟨rfl, nx h.1 h.2⟩,
    fun _ h => absurd h (by simp)⟩

end Sys2Proof
end

