-- ==== Sys2Proof/Laws/State.lean ====
section
/-! SUPPORT. One lemma per field and observer per update of the state, each true by rfl, and what the observers see of
the updates of their own field. -/

namespace Sys2Proof.Machine

/-! ### `State.setV` -/

@[simp] theorem State.setV_v (s : State) (x : Nibble) (b : Byte) : (s.setV x b).v = s.v.set x.toNat b x.isLt := rfl
@[simp] theorem State.setV_pc (s : State) (x : Nibble) (b : Byte) : (s.setV x b).pc = s.pc := rfl
@[simp] theorem State.setV_i (s : State) (x : Nibble) (b : Byte) : (s.setV x b).i = s.i := rfl
@[simp] theorem State.setV_stack (s : State) (x : Nibble) (b : Byte) : (s.setV x b).stack = s.stack := rfl
@[simp] theorem State.setV_sp (s : State) (x : Nibble) (b : Byte) : (s.setV x b).sp = s.sp := rfl
@[simp] theorem State.setV_dt (s : State) (x : Nibble) (b : Byte) : (s.setV x b).dt = s.dt := rfl
@[simp] theorem State.setV_st (s : State) (x : Nibble) (b : Byte) : (s.setV x b).st = s.st := rfl
@[simp] theorem State.setV_keys (s : State) (x : Nibble) (b : Byte) : (s.setV x b).keys = s.keys := rfl
@[simp] theorem State.setV_wk (s : State) (x : Nibble) (b : Byte) : (s.setV x b).wk = s.wk := rfl
@[simp] theorem State.setV_disp (s : State) (x : Nibble) (b : Byte) : (s.setV x b).disp = s.disp := rfl
@[simp] theorem State.setV_mem (s : State) (x : Nibble) (b : Byte) : (s.setV x b).mem = s.mem := rfl
@[simp] theorem State.setV_draws (s : State) (x : Nibble) (b : Byte) : (s.setV x b).draws = s.draws := rfl
@[simp] theorem State.setV_params (s : State) (x : Nibble) (b : Byte) : (s.setV x b).params = s.params := rfl
@[simp] theorem State.setV_key (s : State) (x : Nibble) (b : Byte) (l : Nibble) :
    (s.setV x b).key l = s.key l := rfl
@[simp] theorem State.setV_memRead (s : State) (x : Nibble) (b : Byte) (c : Nat) :
    (s.setV x b).memRead c = s.memRead c := rfl
@[simp] theorem State.setV_pixel (s : State) (x : Nibble) (b : Byte) (row : Screen.Row) (col : Screen.Col) :
    (s.setV x b).pixel row col = s.pixel row col := rfl

/-! ### `State.setKey` -/

@[simp] theorem State.setKey_v (s : State) (k : Nibble) (b : Bool) : (s.setKey k b).v = s.v := rfl
@[simp] theorem State.setKey_pc (s : State) (k : Nibble) (b : Bool) : (s.setKey k b).pc = s.pc := rfl
@[simp] theorem State.setKey_i (s : State) (k : Nibble) (b : Bool) : (s.setKey k b).i = s.i := rfl
@[simp] theorem State.setKey_stack (s : State) (k : Nibble) (b : Bool) : (s.setKey k b).stack = s.stack := rfl
@[simp] theorem State.setKey_sp (s : State) (k : Nibble) (b : Bool) : (s.setKey k b).sp = s.sp := rfl
@[simp] theorem State.setKey_dt (s : State) (k : Nibble) (b : Bool) : (s.setKey k b).dt = s.dt := rfl
@[simp] theorem State.setKey_st (s : State) (k : Nibble) (b : Bool) : (s.setKey k b).st = s.st := rfl
@[simp] theorem State.setKey_keys (s : State) (k : Nibble) (b : Bool) : (s.setKey k b).keys = s.keys.set k.toNat b k.isLt := rfl
@[simp] theorem State.setKey_wk (s : State) (k : Nibble) (b : Bool) : (s.setKey k b).wk = s.wk := rfl
@[simp] theorem State.setKey_disp (s : State) (k : Nibble) (b : Bool) : (s.setKey k b).disp = s.disp := rfl
@[simp] theorem State.setKey_mem (s : State) (k : Nibble) (b : Bool) : (s.setKey k b).mem = s.mem := rfl
@[simp] theorem State.setKey_draws (s : State) (k : Nibble) (b : Bool) : (s.setKey k b).draws = s.draws := rfl
@[simp] theorem State.setKey_params (s : State) (k : Nibble) (b : Bool) : (s.setKey k b).params = s.params := rfl
@[simp] theorem State.setKey_getV (s : State) (k : Nibble) (b : Bool) (y : Nibble) :
    (s.setKey k b).getV y = s.getV y := rfl
@[simp] theorem State.setKey_memRead (s : State) (k : Nibble) (b : Bool) (c : Nat) :
    (s.setKey k b).memRead c = s.memRead c := rfl
@[simp] theorem State.setKey_pixel (s : State) (k : Nibble) (b : Bool) (row : Screen.Row) (col : Screen.Col) :
    (s.setKey k b).pixel row col = s.pixel row col := rfl

/-! ### `State.memWrite` -/

@[simp] theorem State.memWrite_v (s : State) (a : Nat) (b : Byte) : (s.memWrite a b).v = s.v := rfl
@[simp] theorem State.memWrite_pc (s : State) (a : Nat) (b : Byte) : (s.memWrite a b).pc = s.pc := rfl
@[simp] theorem State.memWrite_i (s : State) (a : Nat) (b : Byte) : (s.memWrite a b).i = s.i := rfl
@[simp] theorem State.memWrite_stack (s : State) (a : Nat) (b : Byte) : (s.memWrite a b).stack = s.stack := rfl
@[simp] theorem State.memWrite_sp (s : State) (a : Nat) (b : Byte) : (s.memWrite a b).sp = s.sp := rfl
@[simp] theorem State.memWrite_dt (s : State) (a : Nat) (b : Byte) : (s.memWrite a b).dt = s.dt := rfl
@[simp] theorem State.memWrite_st (s : State) (a : Nat) (b : Byte) : (s.memWrite a b).st = s.st := rfl
@[simp] theorem State.memWrite_keys (s : State) (a : Nat) (b : Byte) : (s.memWrite a b).keys = s.keys := rfl
@[simp] theorem State.memWrite_wk (s : State) (a : Nat) (b : Byte) : (s.memWrite a b).wk = s.wk := rfl
@[simp] theorem State.memWrite_disp (s : State) (a : Nat) (b : Byte) : (s.memWrite a b).disp = s.disp := rfl
@[simp] theorem State.memWrite_mem (s : State) (a : Nat) (b : Byte) : (s.memWrite a b).mem = Memory.write s.params s.mem a b := rfl
@[simp] theorem State.memWrite_draws (s : State) (a : Nat) (b : Byte) : (s.memWrite a b).draws = s.draws := rfl
@[simp] theorem State.memWrite_params (s : State) (a : Nat) (b : Byte) : (s.memWrite a b).params = s.params := rfl
@[simp] theorem State.memWrite_getV (s : State) (a : Nat) (b : Byte) (y : Nibble) :
    (s.memWrite a b).getV y = s.getV y := rfl
@[simp] theorem State.memWrite_key (s : State) (a : Nat) (b : Byte) (l : Nibble) :
    (s.memWrite a b).key l = s.key l := rfl
@[simp] theorem State.memWrite_pixel (s : State) (a : Nat) (b : Byte) (row : Screen.Row) (col : Screen.Col) :
    (s.memWrite a b).pixel row col = s.pixel row col := rfl

/-! ### `State.setPc` -/

@[simp] theorem State.setPc_v (s : State) (w : Word) : (s.setPc w).v = s.v := rfl
@[simp] theorem State.setPc_pc (s : State) (w : Word) : (s.setPc w).pc = w := rfl
@[simp] theorem State.setPc_i (s : State) (w : Word) : (s.setPc w).i = s.i := rfl
@[simp] theorem State.setPc_stack (s : State) (w : Word) : (s.setPc w).stack = s.stack := rfl
@[simp] theorem State.setPc_sp (s : State) (w : Word) : (s.setPc w).sp = s.sp := rfl
@[simp] theorem State.setPc_dt (s : State) (w : Word) : (s.setPc w).dt = s.dt := rfl
@[simp] theorem State.setPc_st (s : State) (w : Word) : (s.setPc w).st = s.st := rfl
@[simp] theorem State.setPc_keys (s : State) (w : Word) : (s.setPc w).keys = s.keys := rfl
@[simp] theorem State.setPc_wk (s : State) (w : Word) : (s.setPc w).wk = s.wk := rfl
@[simp] theorem State.setPc_disp (s : State) (w : Word) : (s.setPc w).disp = s.disp := rfl
@[simp] theorem State.setPc_mem (s : State) (w : Word) : (s.setPc w).mem = s.mem := rfl
@[simp] theorem State.setPc_draws (s : State) (w : Word) : (s.setPc w).draws = s.draws := rfl
@[simp] theorem State.setPc_params (s : State) (w : Word) : (s.setPc w).params = s.params := rfl
@[simp] theorem State.setPc_getV (s : State) (w : Word) (y : Nibble) :
    (s.setPc w).getV y = s.getV y := rfl
@[simp] theorem State.setPc_key (s : State) (w : Word) (l : Nibble) :
    (s.setPc w).key l = s.key l := rfl
@[simp] theorem State.setPc_memRead (s : State) (w : Word) (c : Nat) :
    (s.setPc w).memRead c = s.memRead c := rfl
@[simp] theorem State.setPc_pixel (s : State) (w : Word) (row : Screen.Row) (col : Screen.Col) :
    (s.setPc w).pixel row col = s.pixel row col := rfl

/-! ### `State.setI` -/

@[simp] theorem State.setI_v (s : State) (w : Word) : (s.setI w).v = s.v := rfl
@[simp] theorem State.setI_pc (s : State) (w : Word) : (s.setI w).pc = s.pc := rfl
@[simp] theorem State.setI_i (s : State) (w : Word) : (s.setI w).i = w := rfl
@[simp] theorem State.setI_stack (s : State) (w : Word) : (s.setI w).stack = s.stack := rfl
@[simp] theorem State.setI_sp (s : State) (w : Word) : (s.setI w).sp = s.sp := rfl
@[simp] theorem State.setI_dt (s : State) (w : Word) : (s.setI w).dt = s.dt := rfl
@[simp] theorem State.setI_st (s : State) (w : Word) : (s.setI w).st = s.st := rfl
@[simp] theorem State.setI_keys (s : State) (w : Word) : (s.setI w).keys = s.keys := rfl
@[simp] theorem State.setI_wk (s : State) (w : Word) : (s.setI w).wk = s.wk := rfl
@[simp] theorem State.setI_disp (s : State) (w : Word) : (s.setI w).disp = s.disp := rfl
@[simp] theorem State.setI_mem (s : State) (w : Word) : (s.setI w).mem = s.mem := rfl
@[simp] theorem State.setI_draws (s : State) (w : Word) : (s.setI w).draws = s.draws := rfl
@[simp] theorem State.setI_params (s : State) (w : Word) : (s.setI w).params = s.params := rfl
@[simp] theorem State.setI_getV (s : State) (w : Word) (y : Nibble) :
    (s.setI w).getV y = s.getV y := rfl
@[simp] theorem State.setI_key (s : State) (w : Word) (l : Nibble) :
    (s.setI w).key l = s.key l := rfl
@[simp] theorem State.setI_memRead (s : State) (w : Word) (c : Nat) :
    (s.setI w).memRead c = s.memRead c := rfl
@[simp] theorem State.setI_pixel (s : State) (w : Word) (row : Screen.Row) (col : Screen.Col) :
    (s.setI w).pixel row col = s.pixel row col := rfl

/-! ### `State.setDt` -/

@[simp] theorem State.setDt_v (s : State) (b : Byte) : (s.setDt b).v = s.v := rfl
@[simp] theorem State.setDt_pc (s : State) (b : Byte) : (s.setDt b).pc = s.pc := rfl
@[simp] theorem State.setDt_i (s : State) (b : Byte) : (s.setDt b).i = s.i := rfl
@[simp] theorem State.setDt_stack (s : State) (b : Byte) : (s.setDt b).stack = s.stack := rfl
@[simp] theorem State.setDt_sp (s : State) (b : Byte) : (s.setDt b).sp = s.sp := rfl
@[simp] theorem State.setDt_dt (s : State) (b : Byte) : (s.setDt b).dt = b := rfl
@[simp] theorem State.setDt_st (s : State) (b : Byte) : (s.setDt b).st = s.st := rfl
@[simp] theorem State.setDt_keys (s : State) (b : Byte) : (s.setDt b).keys = s.keys := rfl
@[simp] theorem State.setDt_wk (s : State) (b : Byte) : (s.setDt b).wk = s.wk := rfl
@[simp] theorem State.setDt_disp (s : State) (b : Byte) : (s.setDt b).disp = s.disp := rfl
@[simp] theorem State.setDt_mem (s : State) (b : Byte) : (s.setDt b).mem = s.mem := rfl
@[simp] theorem State.setDt_draws (s : State) (b : Byte) : (s.setDt b).draws = s.draws := rfl
@[simp] theorem State.setDt_params (s : State) (b : Byte) : (s.setDt b).params = s.params := rfl
@[simp] theorem State.setDt_getV (s : State) (b : Byte) (y : Nibble) :
    (s.setDt b).getV y = s.getV y := rfl
@[simp] theorem State.setDt_key (s : State) (b : Byte) (l : Nibble) :
    (s.setDt b).key l = s.key l := rfl
@[simp] theorem State.setDt_memRead (s : State) (b : Byte) (c : Nat) :
    (s.setDt b).memRead c = s.memRead c := rfl
@[simp] theorem State.setDt_pixel (s : State) (b : Byte) (row : Screen.Row) (col : Screen.Col) :
    (s.setDt b).pixel row col = s.pixel row col := rfl

/-! ### `State.setSt` -/

@[simp] theorem State.setSt_v (s : State) (b : Byte) : (s.setSt b).v = s.v := rfl
@[simp] theorem State.setSt_pc (s : State) (b : Byte) : (s.setSt b).pc = s.pc := rfl
@[simp] theorem State.setSt_i (s : State) (b : Byte) : (s.setSt b).i = s.i := rfl
@[simp] theorem State.setSt_stack (s : State) (b : Byte) : (s.setSt b).stack = s.stack := rfl
@[simp] theorem State.setSt_sp (s : State) (b : Byte) : (s.setSt b).sp = s.sp := rfl
@[simp] theorem State.setSt_dt (s : State) (b : Byte) : (s.setSt b).dt = s.dt := rfl
@[simp] theorem State.setSt_st (s : State) (b : Byte) : (s.setSt b).st = b := rfl
@[simp] theorem State.setSt_keys (s : State) (b : Byte) : (s.setSt b).keys = s.keys := rfl
@[simp] theorem State.setSt_wk (s : State) (b : Byte) : (s.setSt b).wk = s.wk := rfl
@[simp] theorem State.setSt_disp (s : State) (b : Byte) : (s.setSt b).disp = s.disp := rfl
@[simp] theorem State.setSt_mem (s : State) (b : Byte) : (s.setSt b).mem = s.mem := rfl
@[simp] theorem State.setSt_draws (s : State) (b : Byte) : (s.setSt b).draws = s.draws := rfl
@[simp] theorem State.setSt_params (s : State) (b : Byte) : (s.setSt b).params = s.params := rfl
@[simp] theorem State.setSt_getV (s : State) (b : Byte) (y : Nibble) :
    (s.setSt b).getV y = s.getV y := rfl
@[simp] theorem State.setSt_key (s : State) (b : Byte) (l : Nibble) :
    (s.setSt b).key l = s.key l := rfl
@[simp] theorem State.setSt_memRead (s : State) (b : Byte) (c : Nat) :
    (s.setSt b).memRead c = s.memRead c := rfl
@[simp] theorem State.setSt_pixel (s : State) (b : Byte) (row : Screen.Row) (col : Screen.Col) :
    (s.setSt b).pixel row col = s.pixel row col := rfl

/-! ### `State.setWk` -/

@[simp] theorem State.setWk_v (s : State) (b : Byte) : (s.setWk b).v = s.v := rfl
@[simp] theorem State.setWk_pc (s : State) (b : Byte) : (s.setWk b).pc = s.pc := rfl
@[simp] theorem State.setWk_i (s : State) (b : Byte) : (s.setWk b).i = s.i := rfl
@[simp] theorem State.setWk_stack (s : State) (b : Byte) : (s.setWk b).stack = s.stack := rfl
@[simp] theorem State.setWk_sp (s : State) (b : Byte) : (s.setWk b).sp = s.sp := rfl
@[simp] theorem State.setWk_dt (s : State) (b : Byte) : (s.setWk b).dt = s.dt := rfl
@[simp] theorem State.setWk_st (s : State) (b : Byte) : (s.setWk b).st = s.st := rfl
@[simp] theorem State.setWk_keys (s : State) (b : Byte) : (s.setWk b).keys = s.keys := rfl
@[simp] theorem State.setWk_wk (s : State) (b : Byte) : (s.setWk b).wk = b := rfl
@[simp] theorem State.setWk_disp (s : State) (b : Byte) : (s.setWk b).disp = s.disp := rfl
@[simp] theorem State.setWk_mem (s : State) (b : Byte) : (s.setWk b).mem = s.mem := rfl
@[simp] theorem State.setWk_draws (s : State) (b : Byte) : (s.setWk b).draws = s.draws := rfl
@[simp] theorem State.setWk_params (s : State) (b : Byte) : (s.setWk b).params = s.params := rfl
@[simp] theorem State.setWk_getV (s : State) (b : Byte) (y : Nibble) :
    (s.setWk b).getV y = s.getV y := rfl
@[simp] theorem State.setWk_key (s : State) (b : Byte) (l : Nibble) :
    (s.setWk b).key l = s.key l := rfl
@[simp] theorem State.setWk_memRead (s : State) (b : Byte) (c : Nat) :
    (s.setWk b).memRead c = s.memRead c := rfl
@[simp] theorem State.setWk_pixel (s : State) (b : Byte) (row : Screen.Row) (col : Screen.Col) :
    (s.setWk b).pixel row col = s.pixel row col := rfl

/-! ### `State.setDisp` -/

@[simp] theorem State.setDisp_v (s : State) (d : DispBuf) : (s.setDisp d).v = s.v := rfl
@[simp] theorem State.setDisp_pc (s : State) (d : DispBuf) : (s.setDisp d).pc = s.pc := rfl
@[simp] theorem State.setDisp_i (s : State) (d : DispBuf) : (s.setDisp d).i = s.i := rfl
@[simp] theorem State.setDisp_stack (s : State) (d : DispBuf) : (s.setDisp d).stack = s.stack := rfl
@[simp] theorem State.setDisp_sp (s : State) (d : DispBuf) : (s.setDisp d).sp = s.sp := rfl
@[simp] theorem State.setDisp_dt (s : State) (d : DispBuf) : (s.setDisp d).dt = s.dt := rfl
@[simp] theorem State.setDisp_st (s : State) (d : DispBuf) : (s.setDisp d).st = s.st := rfl
@[simp] theorem State.setDisp_keys (s : State) (d : DispBuf) : (s.setDisp d).keys = s.keys := rfl
@[simp] theorem State.setDisp_wk (s : State) (d : DispBuf) : (s.setDisp d).wk = s.wk := rfl
@[simp] theorem State.setDisp_disp (s : State) (d : DispBuf) : (s.setDisp d).disp = d := rfl
@[simp] theorem State.setDisp_mem (s : State) (d : DispBuf) : (s.setDisp d).mem = s.mem := rfl
@[simp] theorem State.setDisp_draws (s : State) (d : DispBuf) : (s.setDisp d).draws = s.draws := rfl
@[simp] theorem State.setDisp_params (s : State) (d : DispBuf) : (s.setDisp d).params = s.params := rfl
@[simp] theorem State.setDisp_getV (s : State) (d : DispBuf) (y : Nibble) :
    (s.setDisp d).getV y = s.getV y := rfl
@[simp] theorem State.setDisp_key (s : State) (d : DispBuf) (l : Nibble) :
    (s.setDisp d).key l = s.key l := rfl
@[simp] theorem State.setDisp_memRead (s : State) (d : DispBuf) (c : Nat) :
    (s.setDisp d).memRead c = s.memRead c := rfl

/-! ### `State.countDraw` -/

@[simp] theorem State.countDraw_v (s : State) : (s.countDraw).v = s.v := rfl
@[simp] theorem State.countDraw_pc (s : State) : (s.countDraw).pc = s.pc := rfl
@[simp] theorem State.countDraw_i (s : State) : (s.countDraw).i = s.i := rfl
@[simp] theorem State.countDraw_stack (s : State) : (s.countDraw).stack = s.stack := rfl
@[simp] theorem State.countDraw_sp (s : State) : (s.countDraw).sp = s.sp := rfl
@[simp] theorem State.countDraw_dt (s : State) : (s.countDraw).dt = s.dt := rfl
@[simp] theorem State.countDraw_st (s : State) : (s.countDraw).st = s.st := rfl
@[simp] theorem State.countDraw_keys (s : State) : (s.countDraw).keys = s.keys := rfl
@[simp] theorem State.countDraw_wk (s : State) : (s.countDraw).wk = s.wk := rfl
@[simp] theorem State.countDraw_disp (s : State) : (s.countDraw).disp = s.disp := rfl
@[simp] theorem State.countDraw_mem (s : State) : (s.countDraw).mem = s.mem := rfl
@[simp] theorem State.countDraw_draws (s : State) : (s.countDraw).draws = s.draws + 1 := rfl
@[simp] theorem State.countDraw_params (s : State) : (s.countDraw).params = s.params := rfl
@[simp] theorem State.countDraw_getV (s : State) (y : Nibble) :
    (s.countDraw).getV y = s.getV y := rfl
@[simp] theorem State.countDraw_key (s : State) (l : Nibble) :
    (s.countDraw).key l = s.key l := rfl
@[simp] theorem State.countDraw_memRead (s : State) (c : Nat) :
    (s.countDraw).memRead c = s.memRead c := rfl
@[simp] theorem State.countDraw_pixel (s : State) (row : Screen.Row) (col : Screen.Col) :
    (s.countDraw).pixel row col = s.pixel row col := rfl

/-! ### `State.advancePc` -/

@[simp] theorem State.advancePc_v (s : State) : (s.advancePc).v = s.v := rfl
@[simp] theorem State.advancePc_pc (s : State) : (s.advancePc).pc = s.pc + 2 := rfl
@[simp] theorem State.advancePc_i (s : State) : (s.advancePc).i = s.i := rfl
@[simp] theorem State.advancePc_stack (s : State) : (s.advancePc).stack = s.stack := rfl
@[simp] theorem State.advancePc_sp (s : State) : (s.advancePc).sp = s.sp := rfl
@[simp] theorem State.advancePc_dt (s : State) : (s.advancePc).dt = s.dt := rfl
@[simp] theorem State.advancePc_st (s : State) : (s.advancePc).st = s.st := rfl
@[simp] theorem State.advancePc_keys (s : State) : (s.advancePc).keys = s.keys := rfl
@[simp] theorem State.advancePc_wk (s : State) : (s.advancePc).wk = s.wk := rfl
@[simp] theorem State.advancePc_disp (s : State) : (s.advancePc).disp = s.disp := rfl
@[simp] theorem State.advancePc_mem (s : State) : (s.advancePc).mem = s.mem := rfl
@[simp] theorem State.advancePc_draws (s : State) : (s.advancePc).draws = s.draws := rfl
@[simp] theorem State.advancePc_params (s : State) : (s.advancePc).params = s.params := rfl
@[simp] theorem State.advancePc_getV (s : State) (y : Nibble) :
    (s.advancePc).getV y = s.getV y := rfl
@[simp] theorem State.advancePc_key (s : State) (l : Nibble) :
    (s.advancePc).key l = s.key l := rfl
@[simp] theorem State.advancePc_memRead (s : State) (c : Nat) :
    (s.advancePc).memRead c = s.memRead c := rfl
@[simp] theorem State.advancePc_pixel (s : State) (row : Screen.Row) (col : Screen.Col) :
    (s.advancePc).pixel row col = s.pixel row col := rfl

/-! ### `State.clearWait` -/

@[simp] theorem State.clearWait_v (s : State) : (s.clearWait).v = s.v := rfl
@[simp] theorem State.clearWait_pc (s : State) : (s.clearWait).pc = s.pc := rfl
@[simp] theorem State.clearWait_i (s : State) : (s.clearWait).i = s.i := rfl
@[simp] theorem State.clearWait_stack (s : State) : (s.clearWait).stack = s.stack := rfl
@[simp] theorem State.clearWait_sp (s : State) : (s.clearWait).sp = s.sp := rfl
@[simp] theorem State.clearWait_dt (s : State) : (s.clearWait).dt = s.dt := rfl
@[simp] theorem State.clearWait_st (s : State) : (s.clearWait).st = s.st := rfl
@[simp] theorem State.clearWait_keys (s : State) : (s.clearWait).keys = s.keys := rfl
@[simp] theorem State.clearWait_wk (s : State) : (s.clearWait).wk = s.wk &&& 0x7F := rfl
@[simp] theorem State.clearWait_disp (s : State) : (s.clearWait).disp = s.disp := rfl
@[simp] theorem State.clearWait_mem (s : State) : (s.clearWait).mem = s.mem := rfl
@[simp] theorem State.clearWait_draws (s : State) : (s.clearWait).draws = s.draws := rfl
@[simp] theorem State.clearWait_params (s : State) : (s.clearWait).params = s.params := rfl
@[simp] theorem State.clearWait_getV (s : State) (y : Nibble) :
    (s.clearWait).getV y = s.getV y := rfl
@[simp] theorem State.clearWait_key (s : State) (l : Nibble) :
    (s.clearWait).key l = s.key l := rfl
@[simp] theorem State.clearWait_memRead (s : State) (c : Nat) :
    (s.clearWait).memRead c = s.memRead c := rfl
@[simp] theorem State.clearWait_pixel (s : State) (row : Screen.Row) (col : Screen.Col) :
    (s.clearWait).pixel row col = s.pixel row col := rfl

/-! ### `State.push` -/

@[simp] theorem State.push_v (s : State) (w : Word) : (s.push w).v = s.v := rfl
@[simp] theorem State.push_pc (s : State) (w : Word) : (s.push w).pc = s.pc := rfl
@[simp] theorem State.push_i (s : State) (w : Word) : (s.push w).i = s.i := rfl
@[simp] theorem State.push_stack (s : State) (w : Word) : (s.push w).stack =
    s.stack.set (stackSlot s.nextSp).val (s.stackEntry w) (stackSlot s.nextSp).isLt := rfl
@[simp] theorem State.push_sp (s : State) (w : Word) : (s.push w).sp = s.nextSp := rfl
@[simp] theorem State.push_dt (s : State) (w : Word) : (s.push w).dt = s.dt := rfl
@[simp] theorem State.push_st (s : State) (w : Word) : (s.push w).st = s.st := rfl
@[simp] theorem State.push_keys (s : State) (w : Word) : (s.push w).keys = s.keys := rfl
@[simp] theorem State.push_wk (s : State) (w : Word) : (s.push w).wk = s.wk := rfl
@[simp] theorem State.push_disp (s : State) (w : Word) : (s.push w).disp = s.disp := rfl
@[simp] theorem State.push_mem (s : State) (w : Word) : (s.push w).mem = s.mem := rfl
@[simp] theorem State.push_draws (s : State) (w : Word) : (s.push w).draws = s.draws := rfl
@[simp] theorem State.push_params (s : State) (w : Word) : (s.push w).params = s.params := rfl
@[simp] theorem State.push_getV (s : State) (w : Word) (y : Nibble) :
    (s.push w).getV y = s.getV y := rfl
@[simp] theorem State.push_key (s : State) (w : Word) (l : Nibble) :
    (s.push w).key l = s.key l := rfl
@[simp] theorem State.push_memRead (s : State) (w : Word) (c : Nat) :
    (s.push w).memRead c = s.memRead c := rfl
@[simp] theorem State.push_pixel (s : State) (w : Word) (row : Screen.Row) (col : Screen.Col) :
    (s.push w).pixel row col = s.pixel row col := rfl

/-! ### `State.popPc` -/

@[simp] theorem State.popPc_v (s : State) : (s.popPc).v = s.v := rfl
@[simp] theorem State.popPc_pc (s : State) : (s.popPc).pc = s.stack[stackSlot s.sp] := rfl
@[simp] theorem State.popPc_i (s : State) : (s.popPc).i = s.i := rfl
@[simp] theorem State.popPc_stack (s : State) : (s.popPc).stack = s.stack := rfl
@[simp] theorem State.popPc_sp (s : State) : (s.popPc).sp = s.prevSp := rfl
@[simp] theorem State.popPc_dt (s : State) : (s.popPc).dt = s.dt := rfl
@[simp] theorem State.popPc_st (s : State) : (s.popPc).st = s.st := rfl
@[simp] theorem State.popPc_keys (s : State) : (s.popPc).keys = s.keys := rfl
@[simp] theorem State.popPc_wk (s : State) : (s.popPc).wk = s.wk := rfl
@[simp] theorem State.popPc_disp (s : State) : (s.popPc).disp = s.disp := rfl
@[simp] theorem State.popPc_mem (s : State) : (s.popPc).mem = s.mem := rfl
@[simp] theorem State.popPc_draws (s : State) : (s.popPc).draws = s.draws := rfl
@[simp] theorem State.popPc_params (s : State) : (s.popPc).params = s.params := rfl
@[simp] theorem State.popPc_getV (s : State) (y : Nibble) :
    (s.popPc).getV y = s.getV y := rfl
@[simp] theorem State.popPc_key (s : State) (l : Nibble) :
    (s.popPc).key l = s.key l := rfl
@[simp] theorem State.popPc_memRead (s : State) (c : Nat) :
    (s.popPc).memRead c = s.memRead c := rfl
@[simp] theorem State.popPc_pixel (s : State) (row : Screen.Row) (col : Screen.Col) :
    (s.popPc).pixel row col = s.pixel row col := rfl

/-! ### `State.applyDraw` -/

@[simp] theorem State.applyDraw_pc (s : State) (x : Nibble) (kk r : Byte) : (s.applyDraw x kk r).pc = s.pc := rfl
@[simp] theorem State.applyDraw_i (s : State) (x : Nibble) (kk r : Byte) : (s.applyDraw x kk r).i = s.i := rfl
@[simp] theorem State.applyDraw_stack (s : State) (x : Nibble) (kk r : Byte) : (s.applyDraw x kk r).stack = s.stack := rfl
@[simp] theorem State.applyDraw_sp (s : State) (x : Nibble) (kk r : Byte) : (s.applyDraw x kk r).sp = s.sp := rfl
@[simp] theorem State.applyDraw_dt (s : State) (x : Nibble) (kk r : Byte) : (s.applyDraw x kk r).dt = s.dt := rfl
@[simp] theorem State.applyDraw_st (s : State) (x : Nibble) (kk r : Byte) : (s.applyDraw x kk r).st = s.st := rfl
@[simp] theorem State.applyDraw_keys (s : State) (x : Nibble) (kk r : Byte) : (s.applyDraw x kk r).keys = s.keys := rfl
@[simp] theorem State.applyDraw_wk (s : State) (x : Nibble) (kk r : Byte) : (s.applyDraw x kk r).wk = s.wk := rfl
@[simp] theorem State.applyDraw_disp (s : State) (x : Nibble) (kk r : Byte) : (s.applyDraw x kk r).disp = s.disp := rfl
@[simp] theorem State.applyDraw_mem (s : State) (x : Nibble) (kk r : Byte) : (s.applyDraw x kk r).mem = s.mem := rfl
@[simp] theorem State.applyDraw_draws (s : State) (x : Nibble) (kk r : Byte) : (s.applyDraw x kk r).draws = s.draws := rfl
@[simp] theorem State.applyDraw_params (s : State) (x : Nibble) (kk r : Byte) : (s.applyDraw x kk r).params = s.params := rfl

/-! ### `State.skipIf` -/

@[simp] theorem State.skipIf_v (s : State) (c : Bool) : (s.skipIf c).v = s.v := by
  cases c <;> rfl
@[simp] theorem State.skipIf_pc (s : State) (c : Bool) : (s.skipIf c).pc = if c then s.pc + 2 else s.pc := by
  cases c <;> rfl
@[simp] theorem State.skipIf_i (s : State) (c : Bool) : (s.skipIf c).i = s.i := by
  cases c <;> rfl
@[simp] theorem State.skipIf_stack (s : State) (c : Bool) : (s.skipIf c).stack = s.stack := by
  cases c <;> rfl
@[simp] theorem State.skipIf_sp (s : State) (c : Bool) : (s.skipIf c).sp = s.sp := by
  cases c <;> rfl
@[simp] theorem State.skipIf_dt (s : State) (c : Bool) : (s.skipIf c).dt = s.dt := by
  cases c <;> rfl
@[simp] theorem State.skipIf_st (s : State) (c : Bool) : (s.skipIf c).st = s.st := by
  cases c <;> rfl
@[simp] theorem State.skipIf_keys (s : State) (c : Bool) : (s.skipIf c).keys = s.keys := by
  cases c <;> rfl
@[simp] theorem State.skipIf_wk (s : State) (c : Bool) : (s.skipIf c).wk = s.wk := by
  cases c <;> rfl
@[simp] theorem State.skipIf_disp (s : State) (c : Bool) : (s.skipIf c).disp = s.disp := by
  cases c <;> rfl
@[simp] theorem State.skipIf_mem (s : State) (c : Bool) : (s.skipIf c).mem = s.mem := by
  cases c <;> rfl
@[simp] theorem State.skipIf_draws (s : State) (c : Bool) : (s.skipIf c).draws = s.draws := by
  cases c <;> rfl
@[simp] theorem State.skipIf_params (s : State) (c : Bool) : (s.skipIf c).params = s.params := by
  cases c <;> rfl

/-! ### Observers -/

@[simp] theorem State.getV_setV (s : State) (x y : Nibble) (b : Byte) :
    (s.setV x b).getV y = if y = x then b else s.getV y := by
  simp only [State.getV, State.setV, Vector.getElem_set, BitVec.toNat_inj]
  by_cases h : y = x
  · simp [h]
  · simp [h, Ne.symm h]

@[simp] theorem State.key_setKey (s : State) (k l : Nibble) (b : Bool) :
    (s.setKey k b).key l = if l = k then b else s.key l := by
  simp only [State.key, State.setKey, Vector.getElem_set, BitVec.toNat_inj]
  by_cases h : l = k
  · simp [h]
  · simp [h, Ne.symm h]

theorem State.stack_push (s : State) (w : Word) (j : Fin 12) :
    (s.push w).stack[j] = if j = stackSlot s.nextSp then s.stackEntry w else s.stack[j] := by
  simp only [State.push_stack, Fin.getElem_fin, Vector.getElem_set, Fin.ext_iff]
  by_cases h : j.val = (stackSlot s.nextSp).val <;> simp [h, eq_comm]

theorem stackSlot_val (sp : Nat) : (stackSlot sp).val = sp % 12 := rfl

/-- SP stays in its range (R27). -/
theorem State.nextSp_le (s : State) : s.nextSp ≤ s.params.spMax :=
  Nat.lt_succ_iff.mp (Nat.mod_lt _ (Nat.succ_pos _))

theorem State.prevSp_le (s : State) : s.prevSp ≤ s.params.spMax :=
  Nat.lt_succ_iff.mp (Nat.mod_lt _ (Nat.succ_pos _))

/-- A push, then a pop, brings SP back (R27). -/
theorem State.prevSp_push (s : State) (w : Word) (h : s.sp ≤ s.params.spMax) : (s.push w).prevSp = s.sp := by
  simp only [State.prevSp, State.push_sp, State.push_params, State.nextSp, Nat.mod_add_mod]
  rw [show s.sp + 1 + s.params.spMax = s.sp + (s.params.spMax + 1) by omega, Nat.add_mod_right,
    Nat.mod_eq_of_lt (Nat.lt_succ_iff.mpr h)]

/-- An entry has the stack's width (R26), and is the value itself at the width of PC. -/
theorem State.stackEntry_toNat (s : State) (w : Word) :
    (s.stackEntry w).toNat = w.toNat % 2 ^ s.params.stackEntryWidth := by
  simp only [State.stackEntry, BitVec.toNat_ofNat]
  exact Nat.mod_eq_of_lt (Nat.lt_of_le_of_lt (Nat.mod_le _ _) w.isLt)

theorem State.stackEntry_eq (s : State) (w : Word) (h : 16 ≤ s.params.stackEntryWidth) : s.stackEntry w = w := by
  apply BitVec.eq_of_toNat_eq
  rw [State.stackEntry_toNat]
  exact Nat.mod_eq_of_lt (Nat.lt_of_lt_of_le w.isLt (Nat.pow_le_pow_right (by decide) h))

theorem State.stackEntry_fits (s : State) (w : Word) : (s.stackEntry w).toNat < 2 ^ s.params.stackEntryWidth := by
  rw [State.stackEntry_toNat]
  exact Nat.mod_lt _ (Nat.two_pow_pos _)

@[simp] theorem State.pixel_setDisp (s : State) (d : DispBuf) (row : Screen.Row) (col : Screen.Col) :
    (s.setDisp d).pixel row col = Screen.pixel d row col := rfl

/-- The observers see only their own fields. -/
theorem State.getV_congr {s t : State} (h : t.v = s.v) (x : Nibble) : t.getV x = s.getV x := by
  simp [State.getV, h]

theorem State.key_congr {s t : State} (h : t.keys = s.keys) (k : Nibble) : t.key k = s.key k := by
  simp [State.key, h]

theorem State.pixel_congr {s t : State} (h : t.disp = s.disp) (row : Screen.Row) (col : Screen.Col) :
    t.pixel row col = s.pixel row col := by
  simp [State.pixel, h]

theorem State.memRead_congr {s t : State} (hm : t.mem = s.mem) (hp : t.params = s.params) (a : Nat) :
    t.memRead a = s.memRead a := by
  simp [State.memRead, hm, hp]

end Sys2Proof.Machine
end

