-- ==== Sys2Proof/Laws/Memory.lean ====
section
/-! SUPPORT. What memory does, once and for all: read after write, wrapping, and the canonical form. -/

namespace Sys2Proof.Machine.Memory

theorem lookup_erase (m : Memory) (a b : Nat) :
    lookup (erase m a) b = if b = a then none else lookup m b := by
  induction m with
  | nil => simp [erase, lookup]
  | cons c rest ih =>
    obtain ⟨k, v⟩ := c
    by_cases hk : k = a
    · subst hk
      simp only [erase, lookup, if_true, ih]
      by_cases hb : b = k
      · simp [hb]
      · simp [hb, Ne.symm hb]
    · by_cases hkb : k = b
      · subst hkb; simp [erase, lookup, hk]
      · simp [erase, lookup, hk, hkb, ih]

theorem lookup_insert {m : Memory} {a : Nat} (h : lookup m a = none) (x : Byte) (b : Nat) :
    lookup (insert m a x) b = if b = a then some x else lookup m b := by
  induction m with
  | nil => simp [insert, lookup, eq_comm]
  | cons c rest ih =>
    obtain ⟨k, v⟩ := c
    have hk : k ≠ a := by intro hk; simp [lookup, hk] at h
    have hr : lookup rest a = none := by simpa [lookup, hk] using h
    by_cases hlt : a < k
    · by_cases hb : b = a
      · simp [insert, hlt, lookup, hb]
      · simp [insert, hlt, lookup, hb, Ne.symm hb]
    · by_cases hkb : k = b
      · subst hkb; simp [insert, hlt, lookup, hk]
      · simp [insert, hlt, lookup, hkb, ih hr]

theorem read_mod (p : Config.Params) (m : Memory) (a : Nat) : read p m (a % size) = read p m a := by
  simp [read]

theorem write_mod (p : Config.Params) (m : Memory) (a : Nat) (x : Byte) :
    write p m (a % size) x = write p m a x := by
  simp [write]

/-- A write is seen at its own address and nowhere else (R51), whatever the memory. -/
theorem read_write (p : Config.Params) (m : Memory) (a b : Nat) (x : Byte) :
    read p (write p m a x) b = if b % size = a % size then x else read p m b := by
  have he : lookup (erase m (a % size)) (a % size) = none := by simp [lookup_erase]
  unfold read write
  split
  · rename_i hx
    by_cases hb : b % size = a % size
    · simp [hb, he, hx]
    · simp [hb, lookup_erase]
  · by_cases hb : b % size = a % size
    · simp [hb, lookup_insert he]
    · simp [hb, lookup_insert he, lookup_erase]

theorem mem_erase {m : Memory} {a : Nat} {c : Host.Cell} : c ∈ erase m a ↔ c ∈ m ∧ c.1 ≠ a := by
  induction m with
  | nil => simp [erase]
  | cons d rest ih =>
    obtain ⟨k, v⟩ := d
    by_cases hk : k = a
    · simp only [erase, hk, if_true, ih, List.mem_cons]
      constructor
      · rintro ⟨h, hne⟩; exact ⟨.inr h, hne⟩
      · rintro ⟨rfl | h, hne⟩
        · exact absurd rfl hne
        · exact ⟨h, hne⟩
    · simp only [erase, hk, if_false, ih, List.mem_cons]
      constructor
      · rintro (rfl | ⟨h, hne⟩)
        · exact ⟨.inl rfl, hk⟩
        · exact ⟨.inr h, hne⟩
      · rintro ⟨rfl | h, hne⟩
        · exact .inl rfl
        · exact .inr ⟨h, hne⟩

theorem mem_insert {m : Memory} {a : Nat} {x : Byte} {c : Host.Cell} :
    c ∈ insert m a x ↔ c = (a, x) ∨ c ∈ m := by
  induction m with
  | nil => simp [insert]
  | cons d rest ih =>
    obtain ⟨k, v⟩ := d
    by_cases hlt : a < k
    · simp [insert, hlt]
    · simp only [insert, hlt, if_false, List.mem_cons, ih]
      tauto

theorem sorted_erase {m : Memory} (h : m.Pairwise (fun c d => c.1 < d.1)) (a : Nat) :
    (erase m a).Pairwise (fun c d => c.1 < d.1) := by
  induction m with
  | nil => simp [erase]
  | cons d rest ih =>
    obtain ⟨k, v⟩ := d
    rw [List.pairwise_cons] at h
    by_cases hk : k = a
    · simpa [erase, hk] using ih h.2
    · simp only [erase, hk, if_false, List.pairwise_cons]
      exact ⟨fun c hc => h.1 c (mem_erase.1 hc).1, ih h.2⟩

theorem sorted_insert {m : Memory} (h : m.Pairwise (fun c d => c.1 < d.1)) {a : Nat}
    (ha : ∀ c ∈ m, c.1 ≠ a) (x : Byte) : (insert m a x).Pairwise (fun c d => c.1 < d.1) := by
  induction m with
  | nil => simp [insert]
  | cons d rest ih =>
    obtain ⟨k, v⟩ := d
    have hp := List.pairwise_cons.1 h
    have hka : k ≠ a := ha (k, v) (by simp)
    by_cases hlt : a < k
    · simp only [insert, hlt, if_true, List.pairwise_cons]
      refine ⟨fun c hc => ?_, hp⟩
      rcases List.mem_cons.1 hc with rfl | hc
      · exact hlt
      · exact lt_trans hlt (hp.1 c hc)
    · simp only [insert, hlt, if_false, List.pairwise_cons]
      refine ⟨fun c hc => ?_, ih hp.2 fun c hc => ha c (by simp [hc])⟩
      rcases mem_insert.1 hc with rfl | hc
      · exact lt_of_le_of_ne (not_lt.1 hlt) hka
      · exact hp.1 c hc

/-- Every write keeps the canonical form. -/
theorem wf_write {p : Config.Params} {m : Memory} (h : wf p m) (a : Nat) (x : Byte) :
    wf p (write p m a x) := by
  unfold write
  split
  · exact ⟨sorted_erase h.1 _, fun c hc => h.2 c (mem_erase.1 hc).1⟩
  · rename_i hx
    refine ⟨sorted_insert (sorted_erase h.1 _) (fun c hc => (mem_erase.1 hc).2) x, fun c hc => ?_⟩
    rcases mem_insert.1 hc with rfl | hc
    · exact ⟨Nat.mod_lt _ (by decide), hx⟩
    · exact h.2 c (mem_erase.1 hc).1

theorem wf_nil (p : Config.Params) : wf p [] := by simp [wf]

/-- In a canonical memory the listed pairs are exactly what `lookup` finds. -/
theorem lookup_eq_some {m : Memory} (h : m.Pairwise (fun c d => c.1 < d.1)) {a : Nat} {x : Byte} :
    lookup m a = some x ↔ (a, x) ∈ m := by
  induction m with
  | nil => simp [lookup]
  | cons d rest ih =>
    obtain ⟨k, v⟩ := d
    have hp := List.pairwise_cons.1 h
    by_cases hk : k = a
    · subst hk
      simp only [lookup, if_true, Option.some.injEq, List.mem_cons, Prod.mk.injEq, true_and]
      constructor
      · exact fun h => .inl h.symm
      · rintro (h | h)
        · exact h.symm
        · exact absurd (hp.1 _ h) (lt_irrefl _)
    · simp [lookup, hk, Ne.symm hk, ih hp.2]

end Sys2Proof.Machine.Memory

namespace Sys2Proof.Machine

@[simp] theorem State.memRead_memWrite (s : State) (a b : Nat) (x : Byte) :
    (s.memWrite a x).memRead b = if b % 4096 = a % 4096 then x else s.memRead b :=
  Memory.read_write s.params s.mem a b x

theorem State.memRead_mod (s : State) (a : Nat) : s.memRead (a % 4096) = s.memRead a :=
  Memory.read_mod s.params s.mem a

theorem State.memWrite_mod (s : State) (a : Nat) (x : Byte) : s.memWrite (a % 4096) x = s.memWrite a x := by
  simp only [State.memWrite, State.mk.injEq, true_and, and_true]
  exact Memory.write_mod s.params s.mem a x

end Sys2Proof.Machine
end

