-- ==== Sys2Proof/Laws/Screen.lean ====
section
/-! SUPPORT. Pixels of the packed display, and the blit of Dxyn in closed form. -/

namespace Sys2Proof.Machine.Screen

theorem bitIx_lt (col : Col) : bitIx col < 8 := by unfold bitIx; omega

/-- A byte and a bit of it name one pixel. -/
theorem pixel_place {row row' : Row} {col col' : Col}
    (hb : byteIx row col = byteIx row' col') (hk : bitIx col = bitIx col') : row = row' ∧ col = col' := by
  simp only [byteIx, bitIx, Fin.mk.injEq] at hb hk
  constructor <;> apply Fin.ext <;> omega

/-- Inverting a pixel inverts that pixel and no other. -/
theorem pixel_flip (d : DispBuf) (row row' : Row) (col col' : Col) :
    pixel (flip d row col) row' col' = (pixel d row' col' ^^ decide (row' = row ∧ col' = col)) := by
  unfold pixel flip
  by_cases hb : byteIx row col = byteIx row' col'
  · have hlt := bitIx_lt col'
    by_cases hk : bitIx col' = bitIx col
    · obtain ⟨rfl, rfl⟩ := pixel_place hb hk.symm
      simp [hlt]
    · have hne : ¬(row' = row ∧ col' = col) := by rintro ⟨-, rfl⟩; exact hk rfl
      simp only [hb, Fin.getElem_fin, Vector.getElem_set_self, BitVec.getLsbD_xor, BitVec.getLsbD_twoPow,
        hne, decide_false]
      simp [Ne.symm hk]
  · have hne : ¬(row' = row ∧ col' = col) := by rintro ⟨rfl, rfl⟩; exact hb rfl
    have hv : (byteIx row col).val ≠ (byteIx row' col').val := fun h => hb (Fin.ext h)
    simp [hne, Vector.getElem_set_ne _ _ hv]

theorem pixel_blank (row : Row) (col : Col) : pixel blank row col = false := by
  simp [pixel, blank]

/-- Does a set bit among the first n columns of a sprite row fall on a column of the display? -/
def colCovers (bits : Byte) (cx n : Nat) (col : Col) : Prop :=
  ∃ c, c < n ∧ bits.getLsbD (7 - c) = true ∧ col.val = (cx + c) % 64

/-- The sprite covers (row, col) with one of its first n rows. -/
def covers (sprite : Nat → Byte) (cx cy n : Nat) (row : Row) (col : Col) : Prop :=
  ∃ r, r < n ∧ row.val = (cy + r) % 32 ∧ colCovers (sprite r) cx 8 col

/-- What a blit does to pixels and to `hit`, said once: the covered pixels are inverted, and `hit` is set when a
covered pixel was lit. -/
structure Blits (b b' : Blit) (cov : Row → Col → Prop) : Prop where
  covered   : ∀ row col, cov row col → pixel b'.disp row col = !pixel b.disp row col
  uncovered : ∀ row col, ¬ cov row col → pixel b'.disp row col = pixel b.disp row col
  hit       : b'.hit = true ↔ b.hit = true ∨ ∃ row col, cov row col ∧ pixel b.disp row col = true

theorem Blits.refl (b : Blit) : Blits b b (fun _ _ => False) :=
  ⟨fun _ _ h => h.elim, fun _ _ _ => rfl, by simp⟩

theorem Blits.congr {b b' : Blit} {cov cov' : Row → Col → Prop} (h : Blits b b' cov)
    (hc : ∀ row col, cov row col ↔ cov' row col) : Blits b b' cov' := by
  have : cov = cov' := by funext row col; exact propext (hc row col)
  exact this ▸ h

/-- Two blits that cover no pixel in common are one blit of both. -/
theorem Blits.trans {b b' b'' : Blit} {cov cov' : Row → Col → Prop} (h : Blits b b' cov)
    (h' : Blits b' b'' cov') (hdisj : ∀ row col, cov row col → ¬ cov' row col) :
    Blits b b'' (fun row col => cov row col ∨ cov' row col) := by
  refine ⟨fun row col hc => ?_, fun row col hc => ?_, ?_⟩
  · rcases hc with hc | hc
    · rw [h'.uncovered _ _ (hdisj _ _ hc), h.covered _ _ hc]
    · rw [h'.covered _ _ hc, h.uncovered _ _ (fun h1 => hdisj _ _ h1 hc)]
  · push Not at hc
    rw [h'.uncovered _ _ hc.2, h.uncovered _ _ hc.1]
  · rw [h'.hit, h.hit, or_assoc]
    refine or_congr_right ⟨?_, ?_⟩
    · rintro (⟨row, col, hc, hp⟩ | ⟨row, col, hc, hp⟩)
      · exact ⟨row, col, .inl hc, hp⟩
      · rw [h.uncovered _ _ (fun h1 => hdisj _ _ h1 hc)] at hp
        exact ⟨row, col, .inr hc, hp⟩
    · rintro ⟨row, col, hc | hc, hp⟩
      · exact .inl ⟨row, col, hc, hp⟩
      · refine .inr ⟨row, col, hc, ?_⟩
        rw [h.uncovered _ _ (fun h1 => hdisj _ _ h1 hc)]; exact hp

theorem plot_blits (b : Blit) (py : Row) (px : Col) :
    Blits b (plot b py px) (fun row col => row = py ∧ col = px) := by
  refine ⟨fun row col h => ?_, fun row col h => ?_, ?_⟩
  · simp [plot, pixel_flip, h]
  · simp [plot, pixel_flip, h]
  · simp [plot]

theorem drawCols_blits (bits : Byte) (cx : Nat) (py : Row) (b : Blit) (n : Nat) (hn : n ≤ 8) :
    Blits b (drawCols bits cx py n b) (fun row col => row = py ∧ colCovers bits cx n col) := by
  induction n with
  | zero => exact (Blits.refl b).congr fun row col => by simp [colCovers]
  | succ c ih =>
    have ih := ih (by omega)
    simp only [drawCols]
    split
    · rename_i hbit
      refine (ih.trans (plot_blits _ py (wrapCol (cx + c))) ?_).congr fun row col => ?_
      · rintro row col ⟨-, c', hc', -, hcol⟩ ⟨-, rfl⟩
        simp only [wrapCol] at hcol
        omega
      · simp only [← and_or_left]
        refine and_congr_right fun _ => ⟨?_, ?_⟩
        · rintro (⟨c', hc', hb, hcol⟩ | rfl)
          · exact ⟨c', by omega, hb, hcol⟩
          · exact ⟨c, by omega, hbit, rfl⟩
        · rintro ⟨c', hc', hb, hcol⟩
          rcases Nat.lt_succ_iff_lt_or_eq.1 hc' with hlt | rfl
          · exact .inl ⟨c', hlt, hb, hcol⟩
          · exact .inr (Fin.ext hcol)
    · rename_i hbit
      refine ih.congr fun row col => and_congr_right fun _ => ⟨?_, ?_⟩
      · rintro ⟨c', hc', hb, hcol⟩
        exact ⟨c', by omega, hb, hcol⟩
      · rintro ⟨c', hc', hb, hcol⟩
        rcases Nat.lt_succ_iff_lt_or_eq.1 hc' with hlt | rfl
        · exact ⟨c', hlt, hb, hcol⟩
        · exact absurd hb hbit

/-- The blit of Dxyn in closed form (R151): no pixel is visited twice. -/
theorem drawRows_blits (sprite : Nat → Byte) (cx cy : Nat) (b : Blit) (n : Nat) (hn : n ≤ 32) :
    Blits b (drawRows sprite cx cy n b) (covers sprite cx cy n) := by
  induction n with
  | zero => exact (Blits.refl b).congr fun row col => by simp [covers]
  | succ r ih =>
    have ih := ih (by omega)
    refine (ih.trans (drawCols_blits (sprite r) cx (wrapRow (cy + r)) _ 8 le_rfl) ?_).congr fun row col => ?_
    · rintro row col ⟨r', hr', hrow, -⟩ ⟨rfl, -⟩
      simp only [wrapRow] at hrow
      omega
    · constructor
      · rintro (⟨r', hr', hrow, hcol⟩ | ⟨rfl, hcol⟩)
        · exact ⟨r', by omega, hrow, hcol⟩
        · exact ⟨r, by omega, rfl, hcol⟩
      · rintro ⟨r', hr', hrow, hcol⟩
        rcases Nat.lt_succ_iff_lt_or_eq.1 hr' with hlt | rfl
        · exact .inl ⟨r', hlt, hrow, hcol⟩
        · exact .inr ⟨Fin.ext hrow, hcol⟩

end Sys2Proof.Machine.Screen

namespace Sys2Proof.Machine

/-- What Dxyn does to the display and its flag, in the words of the statements (R151). -/
theorem State.blit_blits (s : State) (x y n : Nibble) :
    Screen.Blits ⟨s.disp, false⟩ (s.blit x y n) (s.spriteCovers x y n) := by
  refine (Screen.drawRows_blits _ _ _ _ n.toNat (by have := n.isLt; omega)).congr fun row col => ?_
  constructor
  · rintro ⟨r, hr, hrow, c, hc, hb, hcol⟩; exact ⟨r, c, hr, hc, hb, hrow, hcol⟩
  · rintro ⟨r, c, hr, hc, hb, hrow, hcol⟩; exact ⟨r, hr, hrow, c, hc, hb, hcol⟩

end Sys2Proof.Machine
end

