-- ==== Sys2Proof/Laws/Frame.lean ====
section
/-! SUPPORT. The frame of every update of the state, and how frames compose. -/

namespace Sys2Proof.Machine

theorem Frame.refl (s : State) (named : Part → Prop) : Frame s s named := ⟨rfl, fun _ _ => rfl⟩

theorem Frame.mono {s t : State} {named named' : Part → Prop} (h : Frame s t named)
    (hsub : ∀ q, named q → named' q) : Frame s t named' :=
  ⟨h.1, fun q hq => h.2 q fun hn => hq (hsub q hn)⟩

theorem Frame.trans {s t u : State} {named : Part → Prop} (h : Frame s t named) (h' : Frame t u named) :
    Frame s u named :=
  ⟨h'.1.trans h.1, fun q hq => (h'.2 q hq).trans (h.2 q hq)⟩

/-- The address of a byte as a part of the state. -/
theorem mem_part_iff (a : Addr) (b : Nat) : a = BitVec.ofNat 12 b ↔ a.toNat = b % 4096 := by
  rw [← BitVec.toNat_inj, BitVec.toNat_ofNat]

theorem frame_setV (s : State) (x : Nibble) (b : Byte) : Frame s (s.setV x b) (· = .v x) := by
  refine ⟨rfl, fun q hq => ?_⟩
  cases q with
  | v r => simp only [Part.v.injEq] at hq; simp [State.observe, hq]
  | _ => rfl

theorem frame_setKey (s : State) (k : Nibble) (b : Bool) : Frame s (s.setKey k b) (· = .key k) := by
  refine ⟨rfl, fun q hq => ?_⟩
  cases q with
  | key r => simp only [Part.key.injEq] at hq; simp [State.observe, hq]
  | _ => rfl

theorem frame_memWrite (s : State) (a : Nat) (b : Byte) :
    Frame s (s.memWrite a b) (· = .mem (BitVec.ofNat 12 a)) := by
  refine ⟨rfl, fun q hq => ?_⟩
  cases q with
  | mem c =>
    simp only [Part.mem.injEq, mem_part_iff] at hq
    have := c.isLt
    simp only [State.observe, State.memRead_memWrite, Nat.mod_eq_of_lt (show c.toNat < 4096 by omega), hq, if_false]
  | _ => rfl

theorem frame_setPc (s : State) (w : Word) : Frame s (s.setPc w) (· = .pc) :=
  ⟨rfl, fun q hq => by cases q <;> first | exact absurd rfl hq | rfl⟩

theorem frame_setI (s : State) (w : Word) : Frame s (s.setI w) (· = .i) :=
  ⟨rfl, fun q hq => by cases q <;> first | exact absurd rfl hq | rfl⟩

theorem frame_setDt (s : State) (b : Byte) : Frame s (s.setDt b) (· = .dt) :=
  ⟨rfl, fun q hq => by cases q <;> first | exact absurd rfl hq | rfl⟩

theorem frame_setSt (s : State) (b : Byte) : Frame s (s.setSt b) (· = .st) :=
  ⟨rfl, fun q hq => by cases q <;> first | exact absurd rfl hq | rfl⟩

theorem frame_setWk (s : State) (b : Byte) : Frame s (s.setWk b) (· = .wk) :=
  ⟨rfl, fun q hq => by cases q <;> first | exact absurd rfl hq | rfl⟩

theorem frame_countDraw (s : State) : Frame s s.countDraw (· = .draws) :=
  ⟨rfl, fun q hq => by cases q <;> first | exact absurd rfl hq | rfl⟩

theorem frame_skipIf (s : State) (c : Bool) : Frame s (s.skipIf c) (· = .pc) := by
  cases c
  · exact Frame.refl s _
  · exact frame_setPc s _

theorem frame_popPc (s : State) : Frame s s.popPc (fun q => q = .pc ∨ q = .sp) :=
  ⟨rfl, fun q hq => by
    cases q <;> first | exact absurd (Or.inl rfl) hq | exact absurd (Or.inr rfl) hq | rfl⟩

theorem frame_push (s : State) (w : Word) :
    Frame s (s.push w) (fun q => q = .sp ∨ q = .stack (stackSlot s.nextSp)) := by
  refine ⟨rfl, fun q hq => ?_⟩
  cases q with
  | sp => exact absurd (Or.inl rfl) hq
  | stack j =>
    simp only [Part.stack.injEq, reduceCtorEq, false_or] at hq
    simp only [State.observe, State.stack_push, hq, if_false]
  | _ => rfl

theorem frame_setDisp (s : State) (d : DispBuf) (cov : Screen.Row → Screen.Col → Prop)
    (h : ∀ row col, ¬ cov row col → Screen.pixel d row col = s.pixel row col) :
    Frame s (s.setDisp d) (fun q => ∃ row col, q = .pixel row col ∧ cov row col) := by
  refine ⟨rfl, fun q hq => ?_⟩
  cases q with
  | pixel row col =>
    have : ¬ cov row col := fun hc => hq ⟨row, col, rfl, hc⟩
    simp only [State.observe, ← h row col this]; rfl
  | _ => rfl

theorem frame_writeFlagThenResult (s : State) (x : Nibble) (q : Flags.Result) :
    Frame s (s.writeFlagThenResult x q) (fun p => p = .v x ∨ p = .v 15) :=
  ((frame_setV s vf _).mono fun _ h => .inr h).trans ((frame_setV _ x _).mono fun _ h => .inl h)

/-- The result and the flag of R121: the flag is lost when x is 15. -/
theorem State.getV_writeFlagThenResult (s : State) (x : Nibble) (q : Flags.Result) :
    (s.writeFlagThenResult x q).getV x = q.r ∧
    (x ≠ 15 → (s.writeFlagThenResult x q).getV 15 = Flags.toByte q.f) := by
  refine ⟨by simp [State.writeFlagThenResult], fun h => ?_⟩
  have h' : ¬ (15 : Nibble) = x := fun e => h e.symm
  simp only [State.writeFlagThenResult, State.getV_setV, h', if_false, if_true]

/-! ### Frames of sequences of stores -/

theorem frame_storeBytes (s : State) (a : Nat) (image : List Byte) :
    Frame s (s.storeBytes a image) (fun q => ∃ k, k < image.length ∧ q = .mem (BitVec.ofNat 12 (a + k))) := by
  induction image generalizing s a with
  | nil => exact Frame.refl s _
  | cons b rest ih =>
    refine ((frame_memWrite s a b).mono ?_).trans ((ih (s.memWrite a b) (a + 1)).mono ?_)
    · rintro q rfl; exact ⟨0, by simp, rfl⟩
    · rintro q ⟨k, hk, rfl⟩
      exact ⟨k + 1, by simpa using hk, by rw [Nat.add_assoc, Nat.add_comm 1 k]⟩

theorem frame_storeDigits (s : State) (v : Byte) :
    Frame s (s.storeDigits v) (fun q => ∃ k, k < 3 ∧ q = s.cell k) := by
  refine (((frame_memWrite s _ _).mono ?_).trans ((frame_memWrite _ _ _).mono ?_)).trans
    ((frame_memWrite _ _ _).mono ?_)
  · rintro q rfl; exact ⟨0, by decide, rfl⟩
  · rintro q rfl; exact ⟨1, by decide, rfl⟩
  · rintro q rfl; exact ⟨2, by decide, rfl⟩

end Sys2Proof.Machine
end

