-- ==== Sys2Proof/Laws/Transfer.lean ====
section
/-! SUPPORT. What the block transfers of Fx55 and Fx65 and the Load operation do, said once. -/

namespace Sys2Proof.Machine

/-- The value of I while a transfer goes on. -/
theorem i_add (i : Word) (n : Nat) : (i + BitVec.ofNat 16 n).toNat = (i.toNat + n) % 65536 := by
  rw [BitVec.toNat_add, BitVec.toNat_ofNat]; omega

/-- Fx55 for the first n registers: everything but memory and I is as before, I has advanced by n, and a byte of
memory is a register where I has passed (R193). -/
theorem dumpUpTo_spec (s : State) (n : Nat) (hn : n ≤ 16) :
    State.dumpUpTo n s = { s with mem := (State.dumpUpTo n s).mem, i := s.i + BitVec.ofNat 16 n } ∧
    (∀ k, k < n → (State.dumpUpTo n s).memRead (s.i.toNat + k) = s.getV (BitVec.ofNat 4 k)) ∧
    (∀ a, (∀ k, k < n → a % 4096 ≠ (s.i.toNat + k) % 4096) → (State.dumpUpTo n s).memRead a = s.memRead a) := by
  induction n with
  | zero => refine ⟨?_, by omega, fun _ _ => rfl⟩; simp [State.dumpUpTo]
  | succ n ih =>
    obtain ⟨hrec, hread, hother⟩ := ih (by omega)
    have hi : (State.dumpUpTo n s).i = s.i + BitVec.ofNat 16 n := by rw [hrec]
    have hinat : (State.dumpUpTo n s).i.toNat % 4096 = (s.i.toNat + n) % 4096 := by
      rw [hi, i_add]; omega
    have hv : ∀ x, (State.dumpUpTo n s).getV x = s.getV x := State.getV_congr (by rw [hrec])
    have hmem : ∀ a, (State.dumpUpTo (n + 1) s).memRead a =
        if a % 4096 = (s.i.toNat + n) % 4096 then s.getV (BitVec.ofNat 4 n)
        else (State.dumpUpTo n s).memRead a := by
      intro a
      have h1 : (State.dumpUpTo (n + 1) s).memRead a =
          ((State.dumpUpTo n s).memWrite (State.dumpUpTo n s).i.toNat
            ((State.dumpUpTo n s).getV (BitVec.ofNat 4 n))).memRead a := rfl
      rw [h1, State.memRead_memWrite, hinat, hv]
    refine ⟨?_, fun k hk => ?_, fun a ha => ?_⟩
    · have : State.dumpUpTo (n + 1) s =
          { State.dumpUpTo n s with mem := (State.dumpUpTo (n + 1) s).mem, i := (State.dumpUpTo n s).i + 1 } := rfl
      rw [this, hi, hrec]
      simp only [State.mk.injEq, true_and, and_true]
      rw [BitVec.add_assoc]; congr 1
      apply BitVec.eq_of_toNat_eq; simp
    · rw [hmem]
      split
      · rename_i h
        have : k = n := by omega
        rw [this]
      · exact hread k (by rcases Nat.lt_succ_iff_lt_or_eq.1 hk with h | rfl; exact h; rename_i h; exact absurd rfl h)
    · rw [hmem, if_neg (ha n (by omega)), hother a fun k hk => ha k (by omega)]

/-- Fx65 for the first n registers: everything but the registers and I is as before, I has advanced by n, and the
first n registers hold the bytes I has passed (R194). -/
theorem loadUpTo_spec (s : State) (n : Nat) (hn : n ≤ 16) :
    State.loadUpTo n s = { s with v := (State.loadUpTo n s).v, i := s.i + BitVec.ofNat 16 n } ∧
    (∀ x : Nibble, (State.loadUpTo n s).getV x =
      if x.toNat < n then s.memRead (s.i.toNat + x.toNat) else s.getV x) := by
  induction n with
  | zero => refine ⟨?_, fun _ => rfl⟩; simp [State.loadUpTo]
  | succ n ih =>
    obtain ⟨hrec, hget⟩ := ih (by omega)
    have hi : (State.loadUpTo n s).i = s.i + BitVec.ofNat 16 n := by rw [hrec]
    have hmem : ∀ a, (State.loadUpTo n s).memRead a = s.memRead a :=
      State.memRead_congr (by rw [hrec]) (by rw [hrec])
    refine ⟨?_, fun x => ?_⟩
    · have : State.loadUpTo (n + 1) s =
          { State.loadUpTo n s with v := (State.loadUpTo (n + 1) s).v, i := (State.loadUpTo n s).i + 1 } := rfl
      rw [this, hi, hrec]
      simp only [State.mk.injEq, true_and, and_true]
      rw [BitVec.add_assoc]; congr 1
      apply BitVec.eq_of_toNat_eq; simp
    · have h1 : (State.loadUpTo (n + 1) s).getV x =
          ((State.loadUpTo n s).setV (BitVec.ofNat 4 n)
            ((State.loadUpTo n s).memRead (State.loadUpTo n s).i.toNat)).getV x := rfl
      have hx : x = BitVec.ofNat 4 n ↔ x.toNat = n := by
        rw [← BitVec.toNat_inj, BitVec.toNat_ofNat]; omega
      rw [h1, State.getV_setV, hget, hmem, hi, i_add]
      by_cases h : x.toNat = n
      · rw [if_pos (hx.2 h), if_pos (by omega), ← h, ← State.memRead_mod, ← State.memRead_mod s (_ + _)]
        congr 1; omega
      · rw [if_neg (fun h' => h (hx.1 h'))]
        by_cases hlt : x.toNat < n
        · rw [if_pos hlt, if_pos (by omega)]
        · rw [if_neg hlt, if_neg (by omega)]

theorem frame_dumpUpTo (s : State) (n : Nat) (hn : n ≤ 16) :
    Frame s (State.dumpUpTo n s) (fun q => q = .i ∨ ∃ k, k < n ∧ q = s.cell k) := by
  obtain ⟨hrec, -, hother⟩ := dumpUpTo_spec s n hn
  refine ⟨by rw [hrec], fun q hq => ?_⟩
  cases q with
  | i => exact absurd (.inl rfl) hq
  | mem a =>
    have : (State.dumpUpTo n s).memRead a.toNat = s.memRead a.toNat := by
      refine hother _ fun k hk h => hq (.inr ⟨k, hk, ?_⟩)
      simp only [State.cell, Part.mem.injEq, mem_part_iff]
      have := a.isLt; omega
    simp only [State.observe, this]
  | _ => rw [hrec]; rfl

theorem frame_loadUpTo (s : State) (n : Nat) (hn : n ≤ 16) :
    Frame s (State.loadUpTo n s) (fun q => q = .i ∨ ∃ r : Nibble, r.toNat < n ∧ q = .v r) := by
  obtain ⟨hrec, hget⟩ := loadUpTo_spec s n hn
  refine ⟨by rw [hrec], fun q hq => ?_⟩
  cases q with
  | i => exact absurd (.inl rfl) hq
  | v r =>
    have : ¬ r.toNat < n := fun h => hq (.inr ⟨r, h, rfl⟩)
    simp only [State.observe, hget, this, if_false]
  | _ => rw [hrec]; rfl

/-- The Load operation: the last byte for an address stays there (R60). -/
theorem memRead_storeBytes (s : State) (a : Nat) (image : List Byte) (k : Nat) (h : k < image.length)
    (hlast : ∀ j, k < j → j < image.length → (a + j) % 4096 ≠ (a + k) % 4096) :
    (s.storeBytes a image).memRead (a + k) = image[k] := by
  induction image generalizing s a k with
  | nil => exact absurd h (by simp)
  | cons b rest ih =>
    cases k with
    | zero =>
      have hkeep : ∀ (t : State) (c : Nat) (l : List Byte), (∀ j, j < l.length → (c + j) % 4096 ≠ a % 4096) →
          (t.storeBytes c l).memRead a = t.memRead a := by
        intro t c l hl
        induction l generalizing t c with
        | nil => rfl
        | cons d l ih =>
          rw [State.storeBytes, ih]
          · rw [State.memRead_memWrite, if_neg]
            exact fun h => hl 0 (by simp) (by simpa using h.symm)
          · intro j hj
            have := hl (j + 1) (by simpa using hj)
            rwa [Nat.add_assoc, Nat.add_comm 1 j]
      rw [State.storeBytes]
      refine (hkeep _ _ _ fun j hj => ?_).trans (by simp)
      have := hlast (j + 1) (by omega) (by simpa using hj)
      rwa [Nat.add_assoc, Nat.add_comm 1 j]
    | succ k =>
      rw [State.storeBytes]
      have := ih (s.memWrite a b) (a + 1) k (by simpa using h) fun j hj hl => by
        have := hlast (j + 1) (by omega) (by simpa using hl)
        rwa [Nat.add_assoc, Nat.add_comm 1 j, Nat.add_assoc, Nat.add_comm 1 k]
      rw [Nat.add_assoc, Nat.add_comm 1 k] at this
      simpa using this

end Sys2Proof.Machine
end

