-- ==== Sys2Proof/Laws/Invariant.lean ====
section
/-! SUPPORT. The invariant under every update of the state. -/

namespace Sys2Proof.Machine

/-- The invariant reads memory, the parameters, the flag and the stack only. -/
theorem State.Inv.congr {s t : State} (h : s.Inv) (hm : t.mem = s.mem) (hp : t.params = s.params)
    (hw : t.wk = s.wk) (hsp : t.sp = s.sp) (hs : t.stack = s.stack) : t.Inv :=
  ⟨by rw [hm, hp]; exact h.mem_wf, by rw [hw]; exact h.dest_legal, by rw [hsp, hp]; exact h.sp_legal,
    by rw [hs, hp]; exact h.stack_fits⟩

theorem State.Inv.memWrite {s : State} (h : s.Inv) (a : Nat) (b : Byte) : (s.memWrite a b).Inv :=
  ⟨Memory.wf_write h.mem_wf a b, h.dest_legal, h.sp_legal, h.stack_fits⟩

/-- A push leaves SP in its range and the new entry at its width. -/
theorem State.Inv.push {s : State} (h : s.Inv) (w : Word) : (s.push w).Inv := by
  refine ⟨h.mem_wf, h.dest_legal, s.nextSp_le, fun j => ?_⟩
  rw [State.stack_push]
  split
  · exact s.stackEntry_fits w
  · exact h.stack_fits j

theorem State.Inv.popPc {s : State} (h : s.Inv) : s.popPc.Inv :=
  ⟨h.mem_wf, h.dest_legal, s.prevSp_le, h.stack_fits⟩

theorem State.Inv.clearWait {s : State} (h : s.Inv) : s.clearWait.Inv := by
  refine ⟨h.mem_wf, ?_, h.sp_legal, h.stack_fits⟩
  have h' := h.dest_legal
  show ((s.wk &&& 0x7F).extractLsb' 4 3 : BitVec 3) = 0
  rw [BitVec.extractLsb'_and, h']
  simp

/-- WK as Fx0A leaves it has a register index in DEST (R31). -/
theorem dest_legal_wait (x : Nibble) : ((0x80 ||| zextNibble x).extractLsb' 4 3 : BitVec 3) = 0 := by
  revert x; decide

theorem State.Inv.storeDigits {s : State} (h : s.Inv) (v : Byte) : (s.storeDigits v).Inv :=
  ((h.memWrite _ _).memWrite _ _).memWrite _ _

theorem State.Inv.dumpUpTo {s : State} (h : s.Inv) (n : Nat) : (State.dumpUpTo n s).Inv := by
  induction n with
  | zero => exact h
  | succ n ih => exact (ih.memWrite _ _).congr rfl rfl rfl rfl rfl

theorem State.Inv.loadUpTo {s : State} (h : s.Inv) (n : Nat) : (State.loadUpTo n s).Inv := by
  induction n with
  | zero => exact h
  | succ n ih => exact ih.congr rfl rfl rfl rfl rfl

theorem State.Inv.storeBytes {s : State} (h : s.Inv) (a : Nat) (image : List Byte) : (s.storeBytes a image).Inv := by
  induction image generalizing s a with
  | nil => exact h
  | cons b rest ih => exact ih (h.memWrite a b) (a + 1)

theorem State.Inv.skipIf {s : State} (h : s.Inv) (c : Bool) : (s.skipIf c).Inv := by
  cases c
  · exact h
  · exact h.congr rfl rfl rfl rfl rfl

end Sys2Proof.Machine
end

