-- ==== Sys2Proof/Laws/PerInstr.lean ====
section
/-! SUPPORT. Facts about every instruction as syntax, one lemma per constructor. -/

namespace Sys2Proof.Laws.RoundTrip

/-- A well-formed instruction is read back from its encoding (R72, R77). -/
def Statement (i : Instr) : Prop := i.wf = true → decodeWord (encode i) = i

theorem cls : Statement .cls := fun _ => by decide

theorem ret : Statement .ret := fun _ => by decide

theorem jp (nnn : Addr) : Statement (.jp nnn) := fun _ => by
  simp [encode, decodeWord, dispatchTable, dispatch, Row.holds, SubTest.holds]

theorem jpV0 (nnn : Addr) : Statement (.jpV0 nnn) := fun _ => by
  simp [encode, decodeWord, dispatchTable, dispatch, Row.holds, SubTest.holds]

theorem call (nnn : Addr) : Statement (.call nnn) := fun _ => by
  simp [encode, decodeWord, dispatchTable, dispatch, Row.holds, SubTest.holds]

theorem ldVxK (x : Nibble) : Statement (.ldVxK x) := fun _ => by
  simp [encode, decodeWord, dispatchTable, dispatch, Row.holds, SubTest.holds]

theorem ldImm (x : Nibble) (kk : Byte) : Statement (.ldImm x kk) := fun _ => by
  simp [encode, decodeWord, dispatchTable, dispatch, Row.holds, SubTest.holds]

theorem ldReg (x : Nibble) (y : Nibble) : Statement (.ldReg x y) := fun _ => by
  simp [encode, decodeWord, dispatchTable, dispatch, Row.holds, SubTest.holds]

theorem addImm (x : Nibble) (kk : Byte) : Statement (.addImm x kk) := fun _ => by
  simp [encode, decodeWord, dispatchTable, dispatch, Row.holds, SubTest.holds]

theorem or (x : Nibble) (y : Nibble) : Statement (.or x y) := fun _ => by
  simp [encode, decodeWord, dispatchTable, dispatch, Row.holds, SubTest.holds]

theorem and (x : Nibble) (y : Nibble) : Statement (.and x y) := fun _ => by
  simp [encode, decodeWord, dispatchTable, dispatch, Row.holds, SubTest.holds]

theorem xor (x : Nibble) (y : Nibble) : Statement (.xor x y) := fun _ => by
  simp [encode, decodeWord, dispatchTable, dispatch, Row.holds, SubTest.holds]

theorem addReg (x : Nibble) (y : Nibble) : Statement (.addReg x y) := fun _ => by
  simp [encode, decodeWord, dispatchTable, dispatch, Row.holds, SubTest.holds]

theorem sub (x : Nibble) (y : Nibble) : Statement (.sub x y) := fun _ => by
  simp [encode, decodeWord, dispatchTable, dispatch, Row.holds, SubTest.holds]

theorem subn (x : Nibble) (y : Nibble) : Statement (.subn x y) := fun _ => by
  simp [encode, decodeWord, dispatchTable, dispatch, Row.holds, SubTest.holds]

theorem shr (x : Nibble) (y : Nibble) : Statement (.shr x y) := fun _ => by
  simp [encode, decodeWord, dispatchTable, dispatch, Row.holds, SubTest.holds]

theorem shl (x : Nibble) (y : Nibble) : Statement (.shl x y) := fun _ => by
  simp [encode, decodeWord, dispatchTable, dispatch, Row.holds, SubTest.holds]

theorem rnd (x : Nibble) (kk : Byte) : Statement (.rnd x kk) := fun _ => by
  simp [encode, decodeWord, dispatchTable, dispatch, Row.holds, SubTest.holds]

theorem drw (x : Nibble) (y : Nibble) (n : Nibble) : Statement (.drw x y n) := fun _ => by
  simp [encode, decodeWord, dispatchTable, dispatch, Row.holds, SubTest.holds]

theorem ldF (x : Nibble) : Statement (.ldF x) := fun _ => by
  simp [encode, decodeWord, dispatchTable, dispatch, Row.holds, SubTest.holds]

theorem ldVxDt (x : Nibble) : Statement (.ldVxDt x) := fun _ => by
  simp [encode, decodeWord, dispatchTable, dispatch, Row.holds, SubTest.holds]

theorem ldDtVx (x : Nibble) : Statement (.ldDtVx x) := fun _ => by
  simp [encode, decodeWord, dispatchTable, dispatch, Row.holds, SubTest.holds]

theorem ldStVx (x : Nibble) : Statement (.ldStVx x) := fun _ => by
  simp [encode, decodeWord, dispatchTable, dispatch, Row.holds, SubTest.holds]

theorem ldI (nnn : Addr) : Statement (.ldI nnn) := fun _ => by
  simp [encode, decodeWord, dispatchTable, dispatch, Row.holds, SubTest.holds]

theorem addI (x : Nibble) : Statement (.addI x) := fun _ => by
  simp [encode, decodeWord, dispatchTable, dispatch, Row.holds, SubTest.holds]

theorem seImm (x : Nibble) (kk : Byte) : Statement (.seImm x kk) := fun _ => by
  simp [encode, decodeWord, dispatchTable, dispatch, Row.holds, SubTest.holds]

theorem sneImm (x : Nibble) (kk : Byte) : Statement (.sneImm x kk) := fun _ => by
  simp [encode, decodeWord, dispatchTable, dispatch, Row.holds, SubTest.holds]

theorem seReg (x : Nibble) (y : Nibble) : Statement (.seReg x y) := fun _ => by
  simp [encode, decodeWord, dispatchTable, dispatch, Row.holds, SubTest.holds]

theorem sneReg (x : Nibble) (y : Nibble) : Statement (.sneReg x y) := fun _ => by
  simp [encode, decodeWord, dispatchTable, dispatch, Row.holds, SubTest.holds]

theorem skp (x : Nibble) : Statement (.skp x) := fun _ => by
  simp [encode, decodeWord, dispatchTable, dispatch, Row.holds, SubTest.holds]

theorem sknp (x : Nibble) : Statement (.sknp x) := fun _ => by
  simp [encode, decodeWord, dispatchTable, dispatch, Row.holds, SubTest.holds]

theorem bcd (x : Nibble) : Statement (.bcd x) := fun _ => by
  simp [encode, decodeWord, dispatchTable, dispatch, Row.holds, SubTest.holds]

theorem dump (x : Nibble) : Statement (.dump x) := fun _ => by
  simp [encode, decodeWord, dispatchTable, dispatch, Row.holds, SubTest.holds]

theorem load (x : Nibble) : Statement (.load x) := fun _ => by
  simp [encode, decodeWord, dispatchTable, dispatch, Row.holds, SubTest.holds]

/-- R75's table against the dispatch table: no row holds of a word of the former. -/
theorem nopUnmatched (w : Word) : Statement (.nopUnmatched w) := fun h => by
  have h : isUnmatched w = true := h
  obtain ⟨hu, -, -, hp, hk, hn, hop⟩ := fieldsOf_nat w
  have key : dispatch dispatchTable (fieldsOf w) = .nopUnmatched (fieldsOf w).op := by
    unfold isUnmatched at h
    simp only [← hu, ← hp, ← hk, ← hn] at h
    generalize fieldsOf w = f at h
    rcases nibble_cases f.u with e | e | e | e | e | e | e | e | e | e | e | e | e | e | e | e <;>
      simp [e] at h <;>
      simp only [dispatchTable, dispatch, Row.holds, SubTest.holds, e, List.cons_append, List.nil_append] <;>
      simp <;> simp only [← BitVec.toNat_inj] <;> first | (split_ifs <;> simp_all) | simp_all
  rw [hop] at key
  exact key

end Sys2Proof.Laws.RoundTrip
end

