-- ==== Sys2Proof/Tests/Slice0.lean ====
section
/-! SUPPORT. Tests of one step each, and a witness for the hypotheses of every statement that has some.
Expected values are those of `spec/95_test_vectors.md`, sections named beside each group. -/

namespace Sys2Proof.Tests

open Sys2Proof Sys2Proof.Machine

-- One theorem at a time: each `decide +kernel` otherwise holds a thread of its own until the file is checked.
set_option Elab.async false

/-! ### Helpers -/

/-- Registers given by index and value, on a state. -/
def withV (s : State) (regs : List (Nibble × Byte)) : State :=
  regs.foldl (fun t q => t.setV q.1 q.2) s

/-- The reset state with some registers, and I. -/
def given (i : Word) (regs : List (Nibble × Byte)) : State := withV (State.reset.setI i) regs

/-- The step of a state, checked. -/
def stepped (s : State) (check : State → Bool) : Bool :=
  match step s with
  | .next t => check t
  | .fault _ => false
  | .refused _ => false

/-- The step of a state with an opcode placed at PC, checked. -/
def after (op : Word) (s : State) (check : State → Bool) : Bool := stepped (s.placeWord s.pc.toNat op) check

/-- One event on a state, checked. -/
def afterEvent (e : Event) (s : State) (check : State → Bool) : Bool :=
  match deliver e s with
  | .next t => check t
  | .fault _ => false
  | .refused _ => false

/-- The step of a running state whose word decodes to `i`; both facts are small evaluations on a concrete state. -/
theorem step_of_fetched {s : State} (i : Instr) (h : (!s.waiting && decide (s.fetchedInstr = i)) = true) :
    step s = exec i s.advancePc := by
  simp only [Bool.and_eq_true, Bool.not_eq_true', decide_eq_true_eq] at h
  simp [step, h.1, h.2]

/-- Packed bytes of the display, by index; a row is 8 bytes. -/
def display (s : State) (ix : List (Fin 256)) : List Byte := ix.map fun k => s.disp[k]

/-- `n` bytes of memory from `a`. -/
def bytes (s : State) (a n : Nat) : List Byte := (List.range n).map fun k => s.memRead (a + k)

/-- A memory with `b` at `a`, then the next addresses. -/
def poke (s : State) (a : Nat) (image : List Byte) : State := s.storeBytes a image

/-! ### Well-formedness: a term each check refuses (R75) -/

theorem test_wf_class_0 : ([0x00E0, 0x00EE].map fun w => (Instr.nopUnmatched w).wf) = [false, false] := by decide
theorem test_wf_class_5 : (Instr.nopUnmatched 0x5120).wf = false := by decide
theorem test_wf_class_8 :
    ([0x8120, 0x8121, 0x8122, 0x8123, 0x8124, 0x8125, 0x8126, 0x8127, 0x812E].all
      fun w => !(Instr.nopUnmatched w).wf) = true := by decide
theorem test_wf_class_9 : (Instr.nopUnmatched 0x9120).wf = false := by decide
theorem test_wf_class_E : ([0xE19E, 0xE1A1].map fun w => (Instr.nopUnmatched w).wf) = [false, false] := by decide
theorem test_wf_class_F :
    ([0xF107, 0xF10A, 0xF115, 0xF118, 0xF11E, 0xF129, 0xF133, 0xF155, 0xF165].all
      fun w => !(Instr.nopUnmatched w).wf) = true := by decide
theorem test_wf_class_without_unmatched :
    ([0x1000, 0x2000, 0x3000, 0x4000, 0x6000, 0x7000, 0xA000, 0xB000, 0xC000, 0xD000].all
      fun w => !(Instr.nopUnmatched w).wf) = true := by decide

/-! ### Decoding: every constructor from a word written out field by field (R72) -/

theorem test_decode_control_flow :
    decodeWord 0b0000_0000_1110_0000 = .cls ∧ decodeWord 0b0000_0000_1110_1110 = .ret ∧
    decodeWord 0b0001_0010_0011_0100 = .jp 0x234 ∧ decodeWord 0b1011_1111_0000_0001 = .jpV0 0xF01 ∧
    decodeWord 0b0010_0011_0001_0000 = .call 0x310 := by decide

theorem test_decode_skips :
    decodeWord 0b0011_0001_0100_0010 = .seImm 0x1 0x42 ∧ decodeWord 0b0100_1110_1000_0001 = .sneImm 0xE 0x81 ∧
    decodeWord 0b0101_0001_0010_0000 = .seReg 0x1 0x2 ∧ decodeWord 0b1001_1100_0011_0000 = .sneReg 0xC 0x3 ∧
    decodeWord 0b1110_0011_1001_1110 = .skp 0x3 ∧ decodeWord 0b1110_1011_1010_0001 = .sknp 0xB := by decide

theorem test_decode_loads_and_logic :
    decodeWord 0b0110_1010_0111_1111 = .ldImm 0xA 0x7F ∧ decodeWord 0b0111_0000_1111_1110 = .addImm 0x0 0xFE ∧
    decodeWord 0b1000_0001_0010_0000 = .ldReg 0x1 0x2 ∧ decodeWord 0b1000_0011_1000_0001 = .or 0x3 0x8 ∧
    decodeWord 0b1000_1111_0001_0010 = .and 0xF 0x1 ∧ decodeWord 0b1000_0101_0110_0011 = .xor 0x5 0x6 := by decide

theorem test_decode_flag_writers :
    decodeWord 0b1000_0000_1111_0100 = .addReg 0x0 0xF ∧ decodeWord 0b1000_0111_1001_0101 = .sub 0x7 0x9 ∧
    decodeWord 0b1000_0111_1001_0111 = .subn 0x7 0x9 ∧ decodeWord 0b1000_0001_1100_0110 = .shr 0x1 0xC ∧
    decodeWord 0b1000_0001_1100_1110 = .shl 0x1 0xC ∧ decodeWord 0b1100_0011_0000_1111 = .rnd 0x3 0x0F := by decide

theorem test_decode_display_timers_keypad :
    decodeWord 0b1101_0000_0001_0101 = .drw 0x0 0x1 0x5 ∧ decodeWord 0b1111_0011_0010_1001 = .ldF 0x3 ∧
    decodeWord 0b1111_0101_0000_0111 = .ldVxDt 0x5 ∧ decodeWord 0b1111_0101_0001_0101 = .ldDtVx 0x5 ∧
    decodeWord 0b1111_0101_0001_1000 = .ldStVx 0x5 ∧ decodeWord 0b1111_1010_0000_1010 = .ldVxK 0xA := by decide

theorem test_decode_index_memory :
    decodeWord 0b1010_0001_0010_0011 = .ldI 0x123 ∧ decodeWord 0b1111_0010_0001_1110 = .addI 0x2 ∧
    decodeWord 0b1111_0001_0011_0011 = .bcd 0x1 ∧ decodeWord 0b1111_1100_0101_0101 = .dump 0xC ∧
    decodeWord 0b1111_0010_0110_0101 = .load 0x2 := by decide

/-- The no-op words of `95_test_vectors.md` section 2. -/
theorem test_decode_unmatched :
    [0x0000, 0x01E0, 0x0FFF, 0x5121, 0x9121, 0x800F, 0xE1FF, 0xF1FF].all
      (fun w => decodeWord w = .nopUnmatched w) = true := by decide

theorem test_decode_bytes_high_first :
    decodeBytes [0x12, 0x34, 0x99] = .ok (.jp 0x234, [0x99]) ∧ decodeBytes [0x12] = .error .truncated ∧
    decodeTableWord 16 0x1234 = some (.jp 0x234) ∧ decodeTableWord 8 0x12E0 = some .cls ∧
    decodeTableWord 24 0x1234 = none := by decide

/-! ### Fetch and step (sections 2 and 8) -/

theorem test_fetch_across_the_top :
    (poke (State.reset.setPc 0x0FFF) 0xFFF [0x12, 0x34]).fetchedWord = 0x1234 ∧
    after 0x1234 (State.reset.setPc 0x0FFF) (fun t => t.pc = 0x0234) = true := by decide +kernel

theorem test_fetch_at_odd_pc :
    after 0x6399 (State.reset.setPc 0x0201) (fun t => t.getV 3 = 0x99 && t.pc = 0x0203) = true := by decide +kernel

theorem test_reset_fetches_0000 :
    step State.reset = .next (State.reset.setPc 0x0202) :=
  step_of_fetched (.nopUnmatched 0x0000) (by decide +kernel)

theorem test_loaded_program_runs :
    afterEvent (.load 0x200 [0x60, 0x01]) State.reset
      (fun s => stepped s fun t => t.getV 0 = 0x01 && t.pc = 0x0202) = true := by decide +kernel

theorem test_withFetchWord_runs_next :
    stepped ((State.reset.setWk 0x83).withFetchWord 16 0x6A7F)
      (fun t => t.getV 0xA = 0x7F && t.pc = 0x0202 && t.wk = 0x03) = true := by decide +kernel

/-! ### Control flow (section 3) -/

theorem test_ret :
    after 0x00EE { State.reset with sp := 0, stack := State.reset.stack.set 0 0x0204 }
      (fun t => t.pc = 0x0204 && t.sp = 11) = true ∧
    after 0x00EE State.reset (fun t => t.pc = 0x0000 && t.sp = 10) = true := by decide +kernel

theorem test_jp :
    after 0x1234 State.reset (fun t => t.pc = 0x0234) = true ∧
    step (State.reset.placeWord 0x200 0x1200) = .next (State.reset.placeWord 0x200 0x1200) :=
  ⟨by decide +kernel, step_of_fetched (.jp 0x200) (by decide +kernel)⟩

theorem test_jpV0 :
    after 0xB300 (given 0 [(0, 0x10)]) (fun t => t.pc = 0x0310) = true ∧
    after 0xBFFF (given 0 [(0, 0xFF)]) (fun t => t.pc = 0x10FE) = true := by decide +kernel

theorem test_call :
    after 0x2300 State.reset (fun t => t.sp = 0 && t.stack[0] = 0x0202 && t.pc = 0x0300) = true ∧
    after 0x2202 (State.reset.setPc 0x0202)
      (fun t => t.sp = 0 && t.stack[0] = 0x0204 && t.pc = 0x0202) = true := by decide +kernel

theorem test_call_capacity_constant :
    after 0x2300 (State.resetWith { Config.defaults with callLinkMode := .capacityConstant })
      (fun t => t.sp = 0 && t.stack[0] = 0x000C && t.pc = 0x0300 &&
        after 0x00EE t (fun u => u.pc = 0x000C && u.sp = 11)) = true := by decide +kernel

/-- Off the defaults of R5 (log 27): entries of 8 bits, and an SP that counts 0 to 255 and indexes mod 12 (U5). -/
theorem test_stack_parameters :
    after 0x2300 (State.resetWith { Config.defaults with stackEntryWidth := 8 })
      (fun t => t.sp = 0 && t.stack[0] = 0x0002 && t.pc = 0x0300) = true ∧
    after 0x00EE { State.resetWith { Config.defaults with spMax := 255, spReset := 0 } with
        stack := State.reset.stack.set 0 0x0204 |>.set 3 0x0300 }
      (fun t => t.pc = 0x0204 && t.sp = 255 && after 0x00EE t (fun u => u.pc = 0x0300 && u.sp = 254)) = true := by
  decide +kernel

theorem test_seImm :
    after 0x3142 (given 0 [(1, 0x42)]) (fun t => t.pc = 0x0204) = true ∧
    after 0x3142 (given 0 [(1, 0x41)]) (fun t => t.pc = 0x0202) = true ∧
    after 0x3000 (State.reset.setPc 0x0FFE) (fun t => t.pc = 0x1002) = true := by decide +kernel

theorem test_sneImm :
    after 0x4142 (given 0 [(1, 0x42)]) (fun t => t.pc = 0x0202) = true ∧
    after 0x4142 (given 0 [(1, 0x41)]) (fun t => t.pc = 0x0204) = true := by decide +kernel

theorem test_seReg :
    after 0x5120 (given 0 [(1, 0x07), (2, 0x07)]) (fun t => t.pc = 0x0204) = true ∧
    after 0x5120 (given 0 [(1, 0x07), (2, 0x08)]) (fun t => t.pc = 0x0202) = true := by decide +kernel

theorem test_sneReg :
    after 0x9120 (given 0 [(1, 0x07), (2, 0x07)]) (fun t => t.pc = 0x0202) = true ∧
    after 0x9120 (given 0 [(1, 0x07), (2, 0x08)]) (fun t => t.pc = 0x0204) = true := by decide +kernel

/-! ### Loads and ALU (sections 1 W1 and 4) -/

theorem test_ldImm : after 0x6A7F State.reset (fun t => t.getV 0xA = 0x7F) = true := by decide +kernel

theorem test_ldReg :
    after 0x8010 (given 0 [(1, 0x9C)]) (fun t => t.getV 0 = 0x9C && t.getV 1 = 0x9C) = true := by decide +kernel

theorem test_addImm :
    after 0x70FF (given 0 [(0, 0x02), (15, 0x55)]) (fun t => t.getV 0 = 0x01 && t.getV 15 = 0x55) = true ∧
    after 0x7F01 (given 0 [(15, 0xFF)]) (fun t => t.getV 15 = 0x00) = true := by decide +kernel

theorem test_or :
    after 0x8011 (given 0 [(0, 0xF0), (1, 0x0F), (15, 0x55)]) (fun t => t.getV 0 = 0xFF && t.getV 15 = 0x55) = true ∧
    after 0x8F11 (given 0 [(15, 0x01), (1, 0x10)]) (fun t => t.getV 15 = 0x11) = true := by decide +kernel

theorem test_and : after 0x8012 (given 0 [(0, 0xF0), (1, 0x3C)]) (fun t => t.getV 0 = 0x30) = true := by decide +kernel

theorem test_xor :
    after 0x8013 (given 0 [(0, 0xFF), (1, 0x0F)]) (fun t => t.getV 0 = 0xF0) = true ∧
    after 0x8003 (given 0 [(0, 0x5A)]) (fun t => t.getV 0 = 0x00) = true := by decide +kernel

theorem test_addReg :
    after 0x8014 (given 0 [(0, 0x12), (1, 0x34)]) (fun t => t.getV 0 = 0x46 && t.getV 15 = 0x00) = true ∧
    after 0x8014 (given 0 [(0, 0xFF), (1, 0x01)]) (fun t => t.getV 0 = 0x00 && t.getV 15 = 0x01) = true := by
  decide +kernel

theorem test_addReg_flag_register :
    after 0x8F14 (given 0 [(15, 0xFF), (1, 0x05)]) (fun t => t.getV 15 = 0x04) = true ∧
    after 0x80F4 (given 0 [(0, 0xFF), (15, 0x01)]) (fun t => t.getV 0 = 0x00 && t.getV 15 = 0x01) = true := by
  decide +kernel

theorem test_sub :
    after 0x8015 (given 0 [(0, 0x05), (1, 0x05)]) (fun t => t.getV 0 = 0x00 && t.getV 15 = 0x01) = true ∧
    after 0x8015 (given 0 [(0, 0x03), (1, 0x05)]) (fun t => t.getV 0 = 0xFE && t.getV 15 = 0x00) = true := by
  decide +kernel

theorem test_sub_flag_register :
    after 0x8F15 (given 0 [(15, 0x03), (1, 0x05)]) (fun t => t.getV 15 = 0xFE) = true ∧
    after 0x80F5 (given 0 [(0, 0x10), (15, 0x20)]) (fun t => t.getV 0 = 0xF0 && t.getV 15 = 0x00) = true := by
  decide +kernel

theorem test_subn :
    after 0x8017 (given 0 [(0, 0x03), (1, 0x05)]) (fun t => t.getV 0 = 0x02 && t.getV 15 = 0x01) = true ∧
    after 0x8017 (given 0 [(0, 0x05), (1, 0x03)]) (fun t => t.getV 0 = 0xFE && t.getV 15 = 0x00) = true ∧
    after 0x8F17 (given 0 [(15, 0x01)]) (fun t => t.getV 15 = 0xFF) = true := by decide +kernel

theorem test_shr :
    after 0x8016 (given 0 [(0, 0xAA), (1, 0x05)])
      (fun t => t.getV 0 = 0x02 && t.getV 15 = 0x01 && t.getV 1 = 0x05) = true ∧
    after 0x8F16 (given 0 [(1, 0x03)]) (fun t => t.getV 15 = 0x01) = true ∧
    after 0x80F6 (given 0 [(15, 0x03)]) (fun t => t.getV 0 = 0x01 && t.getV 15 = 0x01) = true := by decide +kernel

theorem test_shl :
    after 0x801E (given 0 [(1, 0x81)]) (fun t => t.getV 0 = 0x02 && t.getV 15 = 0x01) = true ∧
    after 0x801E (given 0 [(1, 0x40)]) (fun t => t.getV 0 = 0x80 && t.getV 15 = 0x00) = true ∧
    after 0x8F1E (given 0 [(1, 0x81)]) (fun t => t.getV 15 = 0x02) = true := by decide +kernel

theorem test_rnd_masks_the_draw :
    ((given 0 [(3, 0xEE)]).applyDraw 3 0x0F 0xB7).getV 3 = 0x07 ∧
    ((given 0 [(15, 0x01)]).applyDraw 15 0xFF 0x3C).getV 15 = 0x3C := by decide +kernel

theorem test_rnd_any_draw : ((State.reset.setV 3 0xEE).applyDraw 3 0x00 (Config.randomByte 0)).getV 3 = 0x00 := by
  simp [State.applyDraw, State.getV, State.setV]

/-! ### Display (sections 1 W3 to W5 and 5) -/

theorem test_cls :
    after 0x00E0 ((given 0 [(15, 0x07)]).setDisp (Vector.replicate 256 0xFF))
      (fun t => display t [0, 100, 255] = [0, 0, 0] && t.getV 15 = 0x07) = true := by decide +kernel

theorem test_drw_glyph :
    after 0xD015 (given 0 [(15, 0x07)])
      (fun t => display t [0, 8, 16, 24, 32, 1, 40, 255] = [0xF0, 0x90, 0x90, 0x90, 0xF0, 0, 0, 0] &&
        t.getV 15 = 0x00) = true := by decide +kernel

theorem test_drw_wraps_across :
    after 0xD011 (poke (given 0x300 [(0, 0x3C)]) 0x300 [0x0F])
      (fun t => display t [0, 7, 8] = [0xF0, 0, 0]) = true ∧
    after 0xD011 (poke (given 0x300 [(0, 0x3C)]) 0x300 [0xFF])
      (fun t => display t [0, 7, 8] = [0xF0, 0x0F, 0] && t.getV 15 = 0x00) = true := by decide +kernel

theorem test_drw_wraps_start_and_memory :
    after 0xD011 (poke (given 0x300 [(0, 0x41), (1, 0x21)]) 0x300 [0x80]) (fun t => display t [8] = [0x40]) = true ∧
    after 0xD012 (poke (given 0xFFF []) 0xFFF [0x80, 0x40])
      (fun t => display t [0] = [0x80] && display t [8] = [0x40]) = true := by decide +kernel

theorem test_drw_flag_register_and_no_rows :
    after 0xDFF1 (poke (given 0x300 [(15, 0x03)]) 0x300 [0x80])
      (fun t => display t [24] = [0x10] && t.getV 15 = 0x00) = true ∧
    after 0xD010 ((given 0 [(15, 0x07)]).setDisp (Vector.replicate 256 0xFF))
      (fun t => display t [0, 255] = [0xFF, 0xFF] && t.getV 15 = 0x00) = true := by decide +kernel

/-- The second draw of section 5: `81`, then `01` at the same place, leaves only (0, 0). -/
theorem test_drw_second_draw :
    after 0xD011 (poke ((given 0x300 []).setDisp (Vector.replicate 256 0 |>.set 0 0x81)) 0x300 [0x01])
      (fun t => display t [0] = [0x80] && t.getV 15 = 0x01) = true := by decide +kernel

/-- R151 on a lit display: the second draw of one sprite turns no pixel off, so it reports 0 (log 26). -/
theorem test_drw_twice_on_a_lit_display :
    after 0xD011 ((given 0 []).setDisp (Vector.replicate 256 0xFF))
      (fun t => display t [0] = [0x0F] && t.getV 15 = 0x01 &&
        after 0xD011 t (fun u => display u [0] = [0xFF] && u.getV 15 = 0x00)) = true := by decide +kernel

theorem test_packing :
    (Screen.flip Screen.blank 0 0)[0] = 0x80 ∧ (Screen.flip Screen.blank 1 9)[9] = 0x40 := by decide +kernel

theorem test_ldF :
    after 0xF329 (given 0 [(3, 0x1A)]) (fun t => t.i = 0x0032) = true ∧
    after 0xF329 (given 0 [(3, 0xFF)]) (fun t => t.i = 0x004B) = true := by decide +kernel

/-! ### Timers and keypad (sections 1 W8 and 6) -/

theorem test_ldVxDt : after 0xF507 (State.reset.setDt 0x3C) (fun t => t.getV 5 = 0x3C) = true := by decide +kernel
theorem test_ldDtVx : after 0xF515 (given 0 [(5, 0x10)]) (fun t => t.dt = 0x10 && t.st = 0) = true := by decide +kernel
theorem test_ldStVx : after 0xF518 (given 0 [(5, 0x20)]) (fun t => t.st = 0x20 && t.dt = 0) = true := by decide +kernel

theorem test_skp :
    after 0xE39E ((given 0 [(3, 0x17)]).setKey 7 true) (fun t => t.pc = 0x0204) = true ∧
    after 0xE39E ((given 0 [(3, 0x06)]).setKey 7 true) (fun t => t.pc = 0x0202) = true := by decide +kernel

theorem test_sknp :
    after 0xE3A1 ((given 0 [(3, 0x07)]).setKey 7 true) (fun t => t.pc = 0x0202) = true ∧
    after 0xE3A1 ((given 0 [(3, 0x06)]).setKey 7 true) (fun t => t.pc = 0x0204) = true := by decide +kernel

theorem test_ldVxK_waits_and_holds :
    after 0xF50A (State.reset.setKey 3 true)
      (fun t => t.wk = 0x85 && t.pc = 0x0202 && t.waiting &&
        afterEvent (.keyDown 3) t (fun u => u.getV 5 = 0x03 && u.wk = 0x05)) = true ∧
    step (State.reset.setWk 0x85) = .next (State.reset.setWk 0x85) := ⟨by decide +kernel, if_pos rfl⟩

theorem test_keyDown_ends_the_wait :
    afterEvent (.keyDown 7) (State.reset.setWk 0x85)
      (fun t => t.getV 5 = 0x07 && t.wk = 0x05 && t.key 7 && !t.waiting) = true ∧
    afterEvent (.keyDown 0xC) ((given 0 [(15, 0x99)]).setWk 0x8F)
      (fun t => t.getV 15 = 0x0C && t.wk = 0x0F && t.key 0xC) = true := by decide +kernel

theorem test_keyUp :
    afterEvent (.keyUp 3) ((State.reset.setKey 3 true).setWk 0x85)
      (fun t => !t.key 3 && t.wk = 0x85) = true := by decide +kernel

theorem test_tick :
    afterEvent (.tick 3) ((State.reset.setDt 0x05).setSt 0x01) (fun t => t.dt = 0x02 && t.st = 0x00) = true ∧
    afterEvent (.tick 0) (State.reset.setDt 0x05) (fun t => t.dt = 0x05) = true ∧
    afterEvent (.tick 1) ((State.reset.setDt 0x05).setWk 0x85) (fun t => t.dt = 0x04 && t.wk = 0x85) = true := by
  decide +kernel

/-! ### Load, render and reset (sections 1 W9 and 8) -/

theorem test_load_wraps :
    afterEvent (.load 0xFFE [0xAA, 0xBB, 0xCC, 0xDD]) State.reset
      (fun t => bytes t 0xFFE 2 = [0xAA, 0xBB] && bytes t 0 3 = [0xCC, 0xDD, 0x90]) = true := by decide +kernel

theorem test_render :
    afterEvent .render (State.reset.setDisp (Screen.flip (Screen.flip Screen.blank 0 1) 31 63))
      (fun t => t.frame[0]? = some 0x000000 && t.frame[1]? = some 0xFFFFFF && t.frame[2046]? = some 0x000000 &&
        t.frame[2047]? = some 0xFFFFFF) = true := by decide +kernel

theorem test_reset_memory :
    bytes State.reset 0 5 = [0xF0, 0x90, 0x90, 0x90, 0xF0] ∧ State.reset.memRead 0x04F = 0x80 ∧
    State.reset.memRead 0x050 = 0x00 ∧ State.reset.pc = 0x0200 ∧ State.reset.sp = 11 := by decide +kernel

/-! ### Index register and memory transfers (sections 1 W6, W7 and 7) -/

theorem test_ldI : after 0xA123 (given 0xF005 []) (fun t => t.i = 0x0123) = true := by decide +kernel

theorem test_addI :
    after 0xF21E (given 0xF001 [(2, 0x01), (15, 0x55)]) (fun t => t.i = 0x0002 && t.getV 15 = 0x00) = true ∧
    after 0xFF1E (given 0x0FFF [(15, 0x01)]) (fun t => t.i = 0x0000 && t.getV 15 = 0x01) = true := by decide +kernel

theorem test_bcd :
    after 0xF133 (given 0x0300 [(1, 0xFF)]) (fun t => bytes t 0x300 3 = [2, 5, 5] && t.i = 0x0300) = true ∧
    after 0xF133 (given 0x0FFE [(1, 0x7B)])
      (fun t => bytes t 0xFFE 2 = [1, 2] && t.memRead 0 = 3) = true := by decide +kernel

theorem test_dump :
    after 0xF355 (given 0x0300 [(0, 1), (1, 2), (2, 3), (3, 4), (4, 5)])
      (fun t => bytes t 0x300 5 = [1, 2, 3, 4, 0] && t.i = 0x0304) = true ∧
    after 0xFF55 (withV (given 0x0FFE []) ((List.finRange 16).map fun k => (BitVec.ofFin k, 0x10 + BitVec.ofNat 8 k)))
      (fun t => bytes t 0xFFE 2 = [0x10, 0x11] && t.memRead 0x000 = 0x12 && t.memRead 0x00D = 0x1F &&
        t.i = 0x100E) = true := by decide +kernel

theorem test_load :
    after 0xF365 (poke (given 0x0300 [(4, 0x55)]) 0x300 [9, 8, 7, 6])
      (fun t => (List.range 5).map (fun k => t.getV (BitVec.ofNat 4 k)) = [9, 8, 7, 6, 0x55] &&
        t.i = 0x0304) = true ∧
    after 0xFF65 (poke (given 0x0300 []) 0x30F [0xAB])
      (fun t => t.getV 15 = 0xAB && t.getV 14 = 0 && t.i = 0x0310) = true := by decide +kernel

/-! ### Unmatched opcodes (section 2) -/

theorem test_nopUnmatched :
    step ((given 0 [(0, 0x01), (1, 0x02)]).placeWord 0x200 0x800F) =
      .next (((given 0 [(0, 0x01), (1, 0x02)]).placeWord 0x200 0x800F).setPc 0x0202) ∧
    after 0x5121 (given 0 [(1, 0x07), (2, 0x07)]) (fun t => t.pc = 0x0202) = true :=
  ⟨step_of_fetched (.nopUnmatched 0x800F) (by decide +kernel), by decide +kernel⟩

/-- The default parameters but for `UNLISTED_POLICY = refuse`. -/
def refusing : State := State.resetWith { Config.defaults with unlistedPolicy := .refuse }

theorem test_nopUnmatched_refused :
    step (refusing.placeWord 0x200 0xF1FF) = .refused (.unlistedOpcode 0xF1FF) :=
  step_of_fetched (.nopUnmatched 0xF1FF) (by decide +kernel)

/-! ### Witnesses: a state and operands that meet the hypotheses of each statement that has some -/

theorem witness_DecodeEncodeRoundTrip :
    (Instr.drw 0xF 0xE 0x5).wf = true ∧ (Instr.nopUnmatched 0x00E1).wf = true := by decide

theorem witness_DispatchRowOrderNeverMatters :
    dispatchTable.reverse.Perm dispatchTable ∧
    (dispatchTable[18]).holds (fieldsOf 0xD015) = true := ⟨List.reverse_perm _, by decide⟩

/-- Both clauses, at the flag values where they meet. -/
theorem witness_StepRunsDecodedInstruction :
    ((State.reset.setWk 0x7F).wk.toNat < 128 ∧
      encodeBytes (.jp 0x234) =
        [((poke (State.reset.setPc 0xFFFF) 0xFFF [0x12, 0x34]).setWk 0x7F).memRead 0xFFF,
          ((poke (State.reset.setPc 0xFFFF) 0xFFF [0x12, 0x34]).setWk 0x7F).memRead 0x000]) ∧
    128 ≤ (State.reset.setWk 0x80).wk.toNat := by decide +kernel

theorem witness_NoStepFaults :
    State.reset.params.unlistedPolicy = .nop ∧
    isUnmatched (State.reset.placeWord 0x200 0x6A7F).fetchedWord = false ∧
    step (refusing.placeWord 0x200 0xF1FF) = .refused (.unlistedOpcode 0xF1FF) :=
  ⟨rfl, by decide +kernel, test_nopUnmatched_refused⟩

theorem witness_StepKeepsInvariant :
    State.reset.Inv ∧ step State.reset = .next (State.reset.setPc 0x0202) :=
  ⟨⟨by decide +kernel, by decide +kernel, by decide, by decide +kernel⟩, test_reset_fetches_0000⟩

theorem witness_EveryRunKeepsInvariant :
    (State.reset.Inv ∧ run [.step, .keyDown 3, .render] State.reset =
      .next ((State.reset.setPc 0x0202).keyDown 3)) ∧
    boot Config.defaults [0x12, 0x00] [.step] = .next (State.reset.placeWord 0x200 0x1200) := by
  refine ⟨⟨witness_StepKeepsInvariant.1, ?_⟩, ?_⟩
  · simp only [run, deliver, witness_StepKeepsInvariant.2]
  · exact (show boot Config.defaults [0x12, 0x00] [.step] = run [.step] (State.reset.placeWord 0x200 0x1200) from
      rfl).trans (by simp only [run, deliver, test_jp.2])

/-- Parameters at the boundary of R59, and an address on each side of the font. -/
theorem witness_ResetState :
    ({ Config.defaults with fontBase := 0x1B0 } : Config.Params).wf ∧ 0x1AF < (0x1B0 : Addr).toNat ∧
    (0x1B0 : Addr).toNat + 80 ≤ 0x200 := by decide

theorem witness_ResetMeetsInvariant : Config.defaults.spReset ≤ Config.defaults.spMax := by decide

theorem witness_CanonicalMemoriesThatReadAlikeAreEqual :
    Memory.wf Config.defaults [(0x000, 0x00), (0xFFF, 0x01)] ∧
    Memory.wf Config.defaults (Memory.write Config.defaults (Memory.write Config.defaults [] 0x1FFF 0x01) 0 0) ∧
    (∀ a, a < 4096 → Memory.read Config.defaults [(0x000, 0x00), (0xFFF, 0x01)] a =
      Memory.read Config.defaults
        (Memory.write Config.defaults (Memory.write Config.defaults [] 0x1FFF 0x01) 0 0) a) := by
  refine ⟨by decide +kernel, by decide +kernel, ?_⟩
  rw [show Memory.write Config.defaults (Memory.write Config.defaults [] 0x1FFF 0x01) 0 0 =
    [(0x000, 0x00), (0xFFF, 0x01)] by decide +kernel]
  exact fun _ _ => rfl

theorem witness_InstructionsWriteOnlyTheirParts :
    ∃ t, exec (.dump 0xF) (given 0x0FFE [(3, 4)]) = .next t := ⟨_, rfl⟩

theorem witness_InstructionsDependOnlyOnWhatTheyRead :
    (State.reset.setV 2 9).params = State.reset.params ∧
    ∀ q, reads (.addImm 3 1) (State.reset.setV 2 9) q →
      (State.reset.setV 2 9).observe q = State.reset.observe q := by
  refine ⟨rfl, ?_⟩
  rintro q (rfl | rfl) <;> decide +kernel

/-- Two states whose PC, I and return address differ in bits 15 to 12. -/
theorem witness_HighBitsOfPcAndIAreNeverObservable :
    SameBelow12 (given 0x0FFF [])
      { given 0xFFFF [] with pc := 0x1200, stack := (given 0 []).stack.set 11 0xF000 } :=
  ⟨rfl, by decide, by decide, by decide +kernel⟩

/-- SP at the top of the default range. -/
theorem witness_RetPopsTheRing : State.reset.sp < 12 ∧ State.reset.sp = 11 ∧ State.reset.params.spMax = 11 := by decide

/-- SP at the top of a wider range. -/
theorem witness_RetCountsInTheSpRange :
    (State.resetWith { Config.defaults with spMax := 255, spReset := 255 }).sp ≤ 255 ∧
    ∃ t, exec (.call 0x300) (State.resetWith { Config.defaults with spMax := 255, spReset := 255 }) = .next t :=
  ⟨by decide, _, rfl⟩

theorem witness_CallPushesTheLink :
    State.reset.params.spMax = 11 ∧ 16 ≤ State.reset.params.stackEntryWidth ∧
    State.reset.params.callLinkMode = .returnAddress ∧
    (State.resetWith { Config.defaults with callLinkMode := .capacityConstant }).params.callLinkMode =
      .capacityConstant := by decide

/-- Calls at the boundary of both clauses. -/
theorem witness_NestedCallsReturn :
    State.reset.params.callLinkMode = .returnAddress ∧ State.reset.params.spMax = 11 ∧
    16 ≤ State.reset.params.stackEntryWidth ∧ State.reset.sp ≤ 11 ∧
    (List.replicate 12 ((0x0202, 0x300) : Word × Addr)).length ≤ 12 ∧
    (List.replicate 13 ((0x0202, 0x300) : Word × Addr)).length = 13 := by decide

theorem witness_RegisterSkips : (0xF : Nibble) ≠ 0 := by decide

theorem witness_FinalStatesStepToThemselves :
    let s := (State.reset.placeWord 0xFFF 0x1FFF).setPc 0x0FFF
    s.waiting = false ∧ s.pc.toNat ≤ 0x0FFF ∧
    (s.memRead s.pc.toNat).toNat * 256 + (s.memRead (s.pc.toNat + 1)).toNat = 0x1000 + s.pc.toNat := by
  decide +kernel

theorem witness_flag_register_is_not_the_destination : (0xE : Nibble) ≠ 15 := by decide

theorem witness_BitwiseOperations : 7 < 8 := by decide

theorem witness_RandomIsMasked : (0x0F : Byte).getLsbD 4 = false := by decide

/-- Each clause: a covered pixel, a covered pixel that is lit, and no covered pixel lit. -/
theorem witness_DrwInvertsTheCoveredPixels :
    (given 0 []).spriteCovers 0 1 5 4 3 ∧
    ((State.reset.setDisp (Screen.flip Screen.blank 4 3)).spriteCovers 0 1 5 4 3 ∧
      (State.reset.setDisp (Screen.flip Screen.blank 4 3)).pixel 4 3 = true) ∧
    ¬ ∃ row col, State.reset.spriteCovers 0 1 5 row col ∧ State.reset.pixel row col = true := by
  refine ⟨⟨4, 3, ?_⟩, ⟨⟨4, 3, ?_⟩, ?_⟩, ?_⟩
  · decide +kernel
  · decide +kernel
  · decide +kernel
  · rintro ⟨row, col, -, h⟩
    exact absurd (h.symm.trans (Screen.pixel_blank row col)) (by decide)

/-- A first draw, and a second one of the same glyph. -/
theorem witness_DrawingTwiceRestores :
    (∃ t v, exec (.drw 0 1 1) State.reset = .next t ∧ t.getV 0 = State.reset.getV 0 ∧
      t.getV 1 = State.reset.getV 1 ∧
      (∀ r, r < 1 → t.memRead (t.i.toNat + r) = State.reset.memRead (State.reset.i.toNat + r)) ∧
      exec (.drw 0 1 1) t = .next v) ∧
    ∀ row col, State.reset.pixel row col = false :=
  ⟨⟨_, _, rfl, rfl, rfl, fun _ _ => rfl, rfl⟩, fun row col => Screen.pixel_blank row col⟩

theorem witness_SecondDrawAlwaysReportsSetBits :
    (0 : Nibble) ≠ 15 ∧ (1 : Nibble) ≠ 15 ∧
    ∃ t v, exec (.drw 0 1 5) (State.reset.setDisp (Vector.replicate 256 0xFF)) = .next t ∧
      exec (.drw 0 1 5) t = .next v := ⟨by decide, by decide, _, _, rfl, rfl⟩

theorem witness_KeySkips : (0x7 : Nibble).toNat = ((given 0 [(3, 0x17)]).getV 3).toNat % 16 := by decide +kernel

/-- Each clause: the wait entered, left, held, and ticked through. -/
theorem witness_OnlyKeyDownEndsTheWait :
    (∃ t, deliver .step (State.reset.placeWord 0x200 0xF50A) = .next t ∧
      (State.reset.placeWord 0x200 0xF50A).waiting = false ∧ t.waiting = true) ∧
    (∃ t, deliver (.keyDown 7) (State.reset.setWk 0x85) = .next t ∧
      (State.reset.setWk 0x85).waiting = true ∧ t.waiting = false) ∧
    (deliver .step (State.reset.setWk 0x85) = .next (State.reset.setWk 0x85) ∧
      (State.reset.setWk 0x85).waiting = true) ∧
    ∃ t, deliver (.tick 1) (State.reset.setWk 0x85) = .next t :=
  ⟨⟨_, rfl, by decide +kernel, by decide +kernel⟩, ⟨_, rfl, by decide +kernel, by decide +kernel⟩,
    ⟨rfl, by decide +kernel⟩, ⟨_, rfl⟩⟩

/-- Both clauses at their boundary: the highest flag of a running core, and the waits for V0 and VF. -/
theorem witness_KeyDownSetsTheKeyAndEndsTheWait :
    (State.reset.setWk 0x7F).wk.toNat < 128 ∧ (State.reset.setWk 0x80).wk.toNat = 128 + (0x0 : Nibble).toNat ∧
    (State.reset.setWk 0x8F).wk.toNat = 128 + (0xF : Nibble).toNat := by decide +kernel

theorem witness_MemoryWrapsAndReadsBackWrites :
    0x1005 % 4096 = 0x005 % 4096 ∧ 0x0FFF % 4096 ≠ 0x1000 % 4096 := by decide

/-- Byte 1 of a short image, and byte 4096 of one that overwrites its own byte 0. -/
theorem witness_LoadCopiesTheImageWithWrap :
    (∀ j, 1 < j → j < 2 → (0xFFF + j) % 4096 ≠ (0xFFF + 1) % 4096) ∧
    ∀ j, 4096 < j → j < 4097 → (0x200 + j) % 4096 ≠ (0x200 + 4096) % 4096 :=
  ⟨by omega, by omega⟩

theorem witness_DumpStoresV0ToVx : (0xF : Nibble) ≤ 0xF ∧ (0x0 : Nibble) ≤ 0x0 := by decide

theorem witness_LoadFillsV0ToVx : (0x3 : Nibble) ≤ 0x3 ∧ ¬ (0x4 : Nibble) ≤ 0x3 := by decide

theorem memRead_congr {s t : State} (hm : s.mem = t.mem) (hp : s.params = t.params) (a : Nat) :
    s.memRead a = t.memRead a := by rw [State.memRead, State.memRead, hm, hp]

/-- The state before a dump at the highest I of the statement, and the same with the registers zeroed. -/
def beforeDump : State := given 0x0FFF [(0, 1), (3, 4)]
def zeroed : State := { beforeDump.dumpUpTo ((3 : Nibble).toNat + 1) with v := Vector.replicate 16 0, i := 0x0FFF }

/-- Between the two transfers the registers are zeroed and I is set back (R195). -/
theorem witness_DumpThenLoadRoundTrips :
    beforeDump.i.toNat ≤ 0x0FFF ∧
    ∃ t : State, exec (.dump 3) beforeDump = .next t ∧ zeroed.i = beforeDump.i ∧ zeroed.getV 3 = 0 ∧
      ∀ k, k ≤ (3 : Nibble).toNat →
        zeroed.memRead (beforeDump.i.toNat + k) = t.memRead (beforeDump.i.toNat + k) :=
  ⟨by decide, beforeDump.dumpUpTo ((3 : Nibble).toNat + 1), rfl, rfl, rfl,
    fun _ _ => memRead_congr (by simp only [zeroed]) (by simp only [zeroed]) _⟩

/-- Both policies. -/
theorem witness_UnmatchedOpcodesDoNothing :
    isUnmatched 0x0000 = true ∧ isUnmatched 0xFFFF = true ∧ State.reset.params.unlistedPolicy = .nop ∧
    (State.resetWith { Config.defaults with unlistedPolicy := .refuse }).params.unlistedPolicy = .refuse := by
  decide

end Sys2Proof.Tests
end

/-! ### Memory, fetch and load (`20_memory.md`)

The layers below this one already say what a byte access, its frame and a list of stores do; what is added here is the
word that a fetch reads, and the Load operation as an event. -/

namespace Sys2Proof.Machine

/-- The fetched word as a number, its two addresses not yet reduced (R53). -/
theorem State.fetch16_toNat (s : State) (a : Nat) :
    (s.fetch16 a).toNat = (s.memRead a).toNat * 256 + (s.memRead (a + 1)).toNat :=
  wordOfBytes_toNat (s.memRead a) (s.memRead (a + 1))

theorem deliver_load (o : Addr) (image : List Byte) (s : State) :
    deliver (.load o image) s = .next (s.storeBytes o.toNat image) := rfl

/-- A boot without further events is the load at `LOAD_ORIGIN` and nothing else (R60, R246). -/
theorem boot_nil (p : Config.Params) (image : List Byte) :
    boot p image [] = deliver (.load p.loadOrigin image) (State.resetWith p) := by
  simp only [boot, run, deliver_load]

/-- Settles O7: the word is its two bytes side by side, and each read reduces its own address. -/
theorem fetchIsBigEndian : Obligations.FetchIsBigEndian := by
  intro s a
  rw [State.memRead_mod, State.memRead_mod]
  exact s.fetch16_toNat a

/-- Settles O15, from the laws of a byte access and the frame of a write. -/
theorem memoryWrapsAndReadsBackWrites : Obligations.MemoryWrapsAndReadsBackWrites := by
  intro s a b x
  refine ⟨(s.memRead_mod a).symm, (s.memWrite_mod a x).symm, ?_, frame_memWrite s a x⟩
  exact (s.memRead_memWrite a b x).trans (if_congr eq_comm rfl rfl)

/-- Settles O46: a load is the stores of its bytes from the offset upward, of which the last one for an address stays. -/
theorem loadCopiesTheImageWithWrap : Obligations.LoadCopiesTheImageWithWrap := by
  refine ⟨boot_nil, fun s o image => ⟨_, deliver_load o image s, fun k hk hlast => ?_, ?_⟩⟩
  · exact memRead_storeBytes s o.toNat image k hk hlast
  · exact frame_storeBytes s o.toNat image

end Sys2Proof.Machine

/-! ### The encoding (`30_encoding.md`) -/

namespace Sys2Proof

/-- Settles O5: the fields as numbers, without the opcode that `Fields` carries beside them. -/
theorem fieldsAreTheBitsOfTheOpcode : Obligations.FieldsAreTheBitsOfTheOpcode := by
  intro op
  obtain ⟨hu, hx, hy, hp, hkk, hnnn, -⟩ := fieldsOf_nat op
  exact ⟨hu, hx, hy, hp, hkk, hnnn⟩

end Sys2Proof

/-! ### Control flow (`41_control_flow.md`)

The two 16-bit zero-extensions as numbers, the pop in R27's own range, and what every skip answers, said once. -/

namespace Sys2Proof

/-- A class of R75's table that tests `p` alone: `5xyp` and `9xyp` match no row when p is not 0. -/
theorem isUnmatched_encXyp {u : Nibble} (hu : u = 5 ∨ u = 9) (x y : Nibble) {p : Nibble} (hp : p ≠ 0) :
    isUnmatched (encXyp u x y p) = true := by
  have hx := x.isLt
  have hy := y.isLt
  have hpLt := p.isLt
  have hclass : (encXyp u x y p).toNat / 4096 = u.toNat := by rw [encXyp_toNat]; omega
  have hlow : (encXyp u x y p).toNat % 16 = p.toNat := by rw [encXyp_toNat]; omega
  have hpNat : p.toNat ≠ 0 := fun h => hp (BitVec.eq_of_toNat_eq h)
  simp only [isUnmatched, hclass, hlow]
  rcases hu with rfl | rfl
  · exact bne_iff_ne.mpr hpNat
  · exact bne_iff_ne.mpr hpNat

/-- `5xyp` and `9xyp` with p not 0 are the no-op that carries the opcode (R75, R107, R108). -/
theorem decodeWord_encXyp_unmatched {u : Nibble} (hu : u = 5 ∨ u = 9) (x y : Nibble) {p : Nibble} (hp : p ≠ 0) :
    decodeWord (encXyp u x y p) = .nopUnmatched (encXyp u x y p) :=
  Laws.RoundTrip.nopUnmatched _ (isUnmatched_encXyp hu x y hp)

end Sys2Proof

namespace Sys2Proof.Machine

@[simp] theorem zextAddr_toNat (nnn : Addr) : (zextAddr nnn).toNat = nnn.toNat :=
  BitVec.toNat_setWidth_of_le (by decide)

@[simp] theorem zextByte_toNat (b : Byte) : (zextByte b).toNat = b.toNat :=
  BitVec.toNat_setWidth_of_le (by decide)

/-- A 12-bit address plus a byte stays below 2^16 (R102). -/
theorem zextAddr_add_zextByte_toNat (nnn : Addr) (b : Byte) :
    (zextAddr nnn + zextByte b).toNat = nnn.toNat + b.toNat := by
  have := nnn.isLt
  have := b.isLt
  rw [BitVec.toNat_add, zextAddr_toNat, zextByte_toNat]
  omega

/-- An SP in R27's range names its own entry. -/
theorem stackSlot_of_lt {sp : Nat} (h : sp < 12) : stackSlot sp = ⟨sp, h⟩ :=
  Fin.ext (Nat.mod_eq_of_lt h)

theorem State.popPc_pc_of_lt (s : State) (h : s.sp < 12) : s.popPc.pc = s.stack[s.sp] := by
  simp only [State.popPc_pc, stackSlot_of_lt h, Fin.getElem_fin]

/-- In R27's range SP goes down mod 12. -/
theorem State.prevSp_of_spMax (s : State) (h : s.params.spMax = 11) : s.prevSp = (s.sp + 11) % 12 := by
  rw [State.prevSp, h]

/-- The advance of a skip as a number, with its wrap (R73, R105). -/
theorem State.skipIf_pc_toNat (s : State) (c : Bool) :
    (s.skipIf c).pc.toNat = if c then (s.pc.toNat + 2) % 65536 else s.pc.toNat := by
  cases c
  · rfl
  · exact BitVec.toNat_add s.pc 2

/-- What a skip answers: an instruction whose action is `skipIf` on a test of `p` moves PC exactly when `p` holds, and
nothing else (R105 to R108). -/
theorem skip_answers {ins : Instr} {s : State} {c : Bool} {p : Prop} [Decidable p]
    (hexec : exec ins s = .next (s.skipIf c)) (hc : c = true ↔ p) :
    ∃ t, exec ins s = .next t ∧ Frame s t (· = .pc) ∧
      t.pc.toNat = if p then (s.pc.toNat + 2) % 65536 else s.pc.toNat :=
  ⟨_, hexec, frame_skipIf s c, (s.skipIf_pc_toNat c).trans (if_congr hc rfl rfl)⟩

/-- Settles O20, by the pop of the ring: its frame holds for every SP range, its values for R27's. -/
theorem retPopsTheRing : Obligations.RetPopsTheRing := by
  refine ⟨Laws.RoundTrip.ret rfl, fun s => ⟨s.popPc, rfl, fun h hmax => ?_, frame_popPc s⟩⟩
  exact ⟨s.popPc_pc_of_lt h, s.popPc_sp.trans (s.prevSp_of_spMax hmax)⟩

/-- Settles O21. -/
theorem jpWritesPc : Obligations.JpWritesPc := fun nnn =>
  ⟨Laws.RoundTrip.jp nnn rfl, fun s => ⟨s.setPc (zextAddr nnn), rfl, zextAddr_toNat nnn, frame_setPc s _⟩⟩

/-- Settles O22: the 16-bit sum never wraps. -/
theorem jpV0AddsV0 : Obligations.JpV0AddsV0 := fun nnn =>
  ⟨Laws.RoundTrip.jpV0 nnn rfl, fun s => ⟨s.setPc (zextAddr nnn + zextByte (s.getV 0)), rfl,
    zextAddr_add_zextByte_toNat nnn (s.getV 0), frame_setPc s _⟩⟩

/-- Settles O25: both are skips, on the test of Vx against kk. -/
theorem immediateSkips : Obligations.ImmediateSkips := by
  refine fun x kk => ⟨Laws.RoundTrip.seImm x kk rfl, Laws.RoundTrip.sneImm x kk rfl, fun s => ⟨?_, ?_⟩⟩
  · exact skip_answers rfl beq_iff_eq
  · exact skip_answers rfl bne_iff_ne

/-- Settles O26: both are skips, on the test of Vx against Vy; with p not 0 the opcode is in R75's table. -/
theorem registerSkips : Obligations.RegisterSkips := by
  refine fun x y => ⟨Laws.RoundTrip.seReg x y rfl, Laws.RoundTrip.sneReg x y rfl, fun p hp => ⟨?_, ?_⟩,
    fun s => ⟨?_, ?_⟩⟩
  · exact ⟨_, decodeWord_encXyp_unmatched (.inl rfl) x y hp⟩
  · exact ⟨_, decodeWord_encXyp_unmatched (.inr rfl) x y hp⟩
  · exact skip_answers rfl beq_iff_eq
  · exact skip_answers rfl bne_iff_ne

end Sys2Proof.Machine

/-! ### Register loads and ALU (`42_alu.md`)

The results of `Flags` as numbers, and what the two ways to write a result (R121: with a flag and without) answer, said
once for all instructions that use them. -/

namespace Sys2Proof.Machine.Flags

theorem toByte_toNat (f : Bool) : (toByte f).toNat = f.toNat := by
  cases f
  · rfl
  · rfl

/-- A flag that tests `p` is, as a number, 1 when `p` holds and 0 otherwise. -/
theorem toByte_toNat_of_iff {f : Bool} {p : Prop} [Decidable p] (h : f = true ↔ p) :
    (toByte f).toNat = if p then 1 else 0 := by
  rw [toByte_toNat, Bool.toNat, Bool.cond_eq_ite]
  exact if_congr h rfl rfl

/-- A flag that is a bit of a byte, as a number. -/
theorem toByte_getLsbD_toNat (b : Byte) (k : Nat) : (toByte (b.getLsbD k)).toNat = b.toNat / 2 ^ k % 2 :=
  (toByte_toNat _).trans (Nat.toNat_testBit b.toNat k)

theorem add_r_toNat (a b : Byte) : (add a b).r.toNat = (a.toNat + b.toNat) % 256 :=
  BitVec.toNat_ofNat _ 8

/-- Bit 8 of the 9-bit sum is the carry (R128). -/
theorem add_f_iff (a b : Byte) : (add a b).f = true ↔ 255 < a.toNat + b.toNat := by
  have ha := a.isLt
  have hb := b.isLt
  rw [add, Nat.testBit_eq_decide_div_mod_eq, decide_eq_true_iff]
  omega

theorem sub_r_toNat (a b : Byte) : (sub a b).r.toNat = (a.toNat + 256 - b.toNat) % 256 := by
  have hb := b.isLt
  rw [sub, BitVec.toNat_sub]
  omega

/-- The flag of a difference is NOT borrow (R129). -/
theorem sub_f_iff (a b : Byte) : (sub a b).f = true ↔ b.toNat ≤ a.toNat := decide_eq_true_iff

theorem shr_r_toNat (b : Byte) : (shr b).r.toNat = b.toNat / 2 := BitVec.toNat_ushiftRight b 1

theorem shl_r_toNat (b : Byte) : (shl b).r.toNat = b.toNat * 2 % 256 := by
  rw [shl, BitVec.toNat_shiftLeft, Nat.shiftLeft_eq]

/-- Bit 0 as a number, the bit a right shift loses (R131). -/
theorem shr_f_toNat (b : Byte) : (toByte (shr b).f).toNat = b.toNat % 2 := by
  rw [shr, toByte_getLsbD_toNat, Nat.pow_zero, Nat.div_one]

/-- Bit 7 as a number, the bit a left shift loses (R132). -/
theorem shl_f_toNat (b : Byte) : (toByte (shl b).f).toNat = b.toNat / 128 := by
  have hb := b.isLt
  rw [shl, toByte_getLsbD_toNat]
  omega

end Sys2Proof.Machine.Flags

namespace Sys2Proof.Machine

theorem State.getV_setV_same (s : State) (x : Nibble) (b : Byte) : (s.setV x b).getV x = b :=
  (s.getV_setV x x b).trans (if_pos rfl)

/-- What a bitwise operation answers: when `f` acts on each bit as `g`, so does the instruction that writes `f` of Vx
and Vy to Vx, and nothing else changes (R125 to R127). -/
theorem bitwise_answers {ins : Instr} {s : State} {x y : Nibble} {f : Byte → Byte → Byte} {g : Bool → Bool → Bool}
    (hexec : exec ins s = .next (s.setV x (f (s.getV x) (s.getV y))))
    (hf : ∀ a b k, (f a b).getLsbD k = g (a.getLsbD k) (b.getLsbD k)) :
    ∃ t, exec ins s = .next t ∧ Frame s t (· = .v x) ∧
      ∀ k, k < 8 → (t.getV x).getLsbD k = g ((s.getV x).getLsbD k) ((s.getV y).getLsbD k) := by
  refine ⟨_, hexec, frame_setV s x _, fun k _ => ?_⟩
  rw [State.getV_setV_same, hf]

/-- What a flag writer answers: the result in Vx, the flag in VF unless VF is the destination, and nothing else changes
(R121). -/
theorem flagged_answers {ins : Instr} {s : State} {x : Nibble} {q : Flags.Result} {r f : Nat}
    (hexec : exec ins s = .next (s.writeFlagThenResult x q)) (hr : q.r.toNat = r)
    (hf : (Flags.toByte q.f).toNat = f) :
    ∃ t, exec ins s = .next t ∧ (t.getV x).toNat = r ∧ (x ≠ 15 → (t.getV 15).toNat = f) ∧
      Frame s t (fun p => p = .v x ∨ p = .v 15) := by
  obtain ⟨hresult, hflag⟩ := s.getV_writeFlagThenResult x q
  refine ⟨_, hexec, ?_, fun hx => ?_, frame_writeFlagThenResult s x q⟩
  · rw [hresult, hr]
  · rw [hflag hx, hf]

/-- Settles O28: each writes one value to Vx and no flag. -/
theorem loadsAndAddImmediate : Obligations.LoadsAndAddImmediate := by
  refine ⟨fun x kk => ⟨Laws.RoundTrip.ldImm x kk rfl, Laws.RoundTrip.addImm x kk rfl, fun s => ⟨?_, ?_⟩⟩,
    fun x y => ⟨Laws.RoundTrip.ldReg x y rfl, fun s => ?_⟩⟩
  · exact ⟨s.setV x kk, rfl, s.getV_setV_same x kk, frame_setV s x kk⟩
  · refine ⟨s.setV x (s.getV x + kk), rfl, ?_, frame_setV s x _⟩
    rw [State.getV_setV_same, BitVec.toNat_add]
  · exact ⟨s.setV x (s.getV y), rfl, s.getV_setV_same x _, frame_setV s x _⟩

/-- Settles O29: the three operations on bytes act bit by bit. -/
theorem bitwiseOperations : Obligations.BitwiseOperations := by
  refine fun x y => ⟨Laws.RoundTrip.or x y rfl, Laws.RoundTrip.and x y rfl, Laws.RoundTrip.xor x y rfl,
    fun s => ⟨?_, ?_, ?_⟩⟩
  · exact bitwise_answers (f := (· ||| ·)) (g := (· || ·)) rfl fun _ _ _ => BitVec.getLsbD_or
  · exact bitwise_answers (f := (· &&& ·)) (g := (· && ·)) rfl fun _ _ _ => BitVec.getLsbD_and
  · exact bitwise_answers (f := (· ^^^ ·)) (g := (· ^^ ·)) rfl fun _ _ _ => BitVec.getLsbD_xor

/-- Settles O30: the flag is bit 8 of the exact sum. -/
theorem addWithCarry : Obligations.AddWithCarry := fun x y =>
  ⟨Laws.RoundTrip.addReg x y rfl, fun _ =>
    flagged_answers rfl (Flags.add_r_toNat _ _) (Flags.toByte_toNat_of_iff (Flags.add_f_iff _ _))⟩

/-- Settles O31: 8xy7 is 8xy5 with the operands exchanged. -/
theorem subtractWithNotBorrow : Obligations.SubtractWithNotBorrow := by
  refine fun x y => ⟨Laws.RoundTrip.sub x y rfl, Laws.RoundTrip.subn x y rfl, fun s => ⟨?_, ?_⟩⟩
  · exact flagged_answers rfl (Flags.sub_r_toNat _ _) (Flags.toByte_toNat_of_iff (Flags.sub_f_iff _ _))
  · exact flagged_answers rfl (Flags.sub_r_toNat _ _) (Flags.toByte_toNat_of_iff (Flags.sub_f_iff _ _))

/-- Settles O32: the flag is the bit of the old Vy that the shift loses. -/
theorem shiftsOfVy : Obligations.ShiftsOfVy := by
  refine fun x y => ⟨Laws.RoundTrip.shr x y rfl, Laws.RoundTrip.shl x y rfl, fun s => ⟨?_, ?_⟩⟩
  · exact flagged_answers rfl (Flags.shr_r_toNat _) (Flags.shr_f_toNat _)
  · exact flagged_answers rfl (Flags.shl_r_toNat _) (Flags.shl_f_toNat _)

end Sys2Proof.Machine

/-! ### Display (`43_display.md`)

What a write of the whole display leaves unchanged, and a glyph's address as a number. -/

namespace Sys2Proof.Machine

/-- A write of the whole display changes pixels only (R150). -/
theorem frame_setDisp_pixels (s : State) (d : DispBuf) :
    Frame s (s.setDisp d) (fun q => ∃ row col, q = .pixel row col) := by
  refine (frame_setDisp s d (fun _ _ => True) fun _ _ h => absurd trivial h).mono ?_
  rintro q ⟨row, col, hq, -⟩
  exact ⟨row, col, hq⟩

@[simp] theorem lowNibble_toNat (b : Byte) : (lowNibble b).toNat = b.toNat % 16 := by
  rw [lowNibble, BitVec.extractLsb'_toNat, Nat.shiftRight_zero]

/-- The address of a glyph never wraps: `FONT_BASE` has 12 bits and the last glyph is 75 bytes above it (R154). -/
theorem glyphAddr_toNat (p : Config.Params) (d : Nibble) :
    (glyphAddr p d).toNat = p.fontBase.toNat + 5 * d.toNat := by
  have hbase := p.fontBase.isLt
  have hd := d.isLt
  have hwide : (d.setWidth 16).toNat = d.toNat := BitVec.toNat_setWidth_of_le (by decide)
  rw [glyphAddr, BitVec.toNat_add, BitVec.toNat_mul, zextAddr_toNat, hwide, show (5 : Word).toNat = 5 from rfl]
  omega

/-- Settles O34: the blank display has no lit pixel, and only the display is written. -/
theorem clsClearsEveryPixel : Obligations.ClsClearsEveryPixel :=
  ⟨Laws.RoundTrip.cls rfl, fun s =>
    ⟨s.setDisp Screen.blank, rfl, Screen.pixel_blank, frame_setDisp_pixels s Screen.blank⟩⟩

/-- Settles O38: the high nibble of Vx is dropped before the multiplication, and the sum never wraps. -/
theorem ldFPointsAtTheGlyph : Obligations.LdFPointsAtTheGlyph := by
  refine fun x => ⟨Laws.RoundTrip.ldF x rfl, fun s => ⟨_, rfl, ?_, frame_setI s _⟩⟩
  rw [State.setI_i, glyphAddr_toNat, lowNibble_toNat]

end Sys2Proof.Machine

/-! ### Timers and keypad (`44_timers_keypad.md`)

The timer moves write one register or timer; the key skips are skips on the key that the low nibble of Vx names. -/

namespace Sys2Proof.Machine

/-- The key index is the low nibble as a number (R173, R174). -/
theorem lowNibble_eq_of_toNat {b : Byte} {k : Nibble} (h : k.toNat = b.toNat % 16) : lowNibble b = k :=
  BitVec.eq_of_toNat_eq ((lowNibble_toNat b).trans h.symm)

/-- Settles O39: each copies one byte between Vx and a timer. -/
theorem timerMoves : Obligations.TimerMoves := by
  refine fun x => ⟨Laws.RoundTrip.ldVxDt x rfl, Laws.RoundTrip.ldDtVx x rfl, Laws.RoundTrip.ldStVx x rfl,
    fun s => ⟨?_, ?_, ?_⟩⟩
  · exact ⟨s.setV x s.dt, rfl, s.getV_setV_same x s.dt, frame_setV s x s.dt⟩
  · exact ⟨s.setDt (s.getV x), rfl, s.setDt_dt (s.getV x), frame_setDt s (s.getV x)⟩
  · exact ⟨s.setSt (s.getV x), rfl, s.setSt_st (s.getV x), frame_setSt s (s.getV x)⟩

/-- Settles O40: both are skips, on the test of the key that the low nibble of Vx names. -/
theorem keySkips : Obligations.KeySkips := by
  refine fun x => ⟨Laws.RoundTrip.skp x rfl, Laws.RoundTrip.sknp x rfl, fun s k hk => ?_⟩
  have hkey : s.key (lowNibble (s.getV x)) = s.key k := congrArg s.key (lowNibble_eq_of_toNat hk)
  refine ⟨?_, ?_⟩
  · exact skip_answers rfl (by rw [hkey])
  · exact skip_answers rfl (by rw [hkey, Bool.not_eq_true'])

end Sys2Proof.Machine

/-! ### Index register and memory transfers (`45_index_memory.md`)

The sum of Fx1E and the digits of Fx33 as numbers, the three bytes of Fx33 each at its own address, and the value of I
after a transfer; the transfers themselves are closed by `dumpUpTo_spec` and `loadUpTo_spec`. -/

namespace Sys2Proof.Machine.Flags

/-- The mask of a 12-bit address as a remainder (R191). -/
theorem mask12_toNat (w : Word) : (w &&& 0x0FFF).toNat = w.toNat % 4096 :=
  (BitVec.toNat_and w 0x0FFF).trans (Nat.and_two_pow_sub_one_eq_mod w.toNat 12)

/-- The sum is 13 bits wide, so nothing of it is lost before it is masked (R191). -/
theorem addIndex_fst_toNat (i : Word) (b : Byte) :
    (addIndex i b).1.toNat = (i.toNat % 4096 + b.toNat) % 4096 := by
  simp only [addIndex, mask12_toNat, BitVec.toNat_ofNat]
  omega

/-- Bit 12 of the sum is the overflow out of the 12-bit address (R191). -/
theorem addIndex_snd_iff (i : Word) (b : Byte) :
    (addIndex i b).2 = true ↔ 4096 ≤ i.toNat % 4096 + b.toNat := by
  have hb := b.isLt
  rw [addIndex, mask12_toNat, Nat.testBit_eq_decide_div_mod_eq, decide_eq_true_iff]
  omega

end Sys2Proof.Machine.Flags

namespace Sys2Proof.Machine

/-- The three stores of Fx33 go to three different bytes, so each of them is read back (R192). -/
theorem State.memRead_storeDigits (s : State) (v : Byte) :
    (s.storeDigits v).memRead s.i.toNat = v / 100 ∧
    (s.storeDigits v).memRead (s.i.toNat + 1) = v / 10 % 10 ∧
    (s.storeDigits v).memRead (s.i.toNat + 2) = v % 10 := by
  have h01 : s.i.toNat % 4096 ≠ (s.i.toNat + 1) % 4096 := by omega
  have h02 : s.i.toNat % 4096 ≠ (s.i.toNat + 2) % 4096 := by omega
  have h12 : (s.i.toNat + 1) % 4096 ≠ (s.i.toNat + 2) % 4096 := by omega
  simp only [State.storeDigits, State.memRead_memWrite, h01, h02, h12, if_true, if_false, and_self]

/-- The first n registers, n = x + 1, are those up to Vx. -/
theorem nibble_le_iff_lt_succ (k x : Nibble) : k ≤ x ↔ k.toNat < x.toNat + 1 :=
  BitVec.le_def.trans Nat.lt_succ_iff.symm

/-- I after a transfer of V0 to Vx (R193, R194). -/
theorem i_add_succ (i : Word) (x : Nibble) :
    (i + BitVec.ofNat 16 (x.toNat + 1)).toNat = (i.toNat + x.toNat + 1) % 65536 :=
  i_add i (x.toNat + 1)

/-- Settles O51: the dump of the first x + 1 registers, whose spec and frame bound k by k < x + 1. -/
theorem dumpStoresV0ToVx : Obligations.DumpStoresV0ToVx := by
  refine fun x => ⟨Laws.RoundTrip.dump x rfl, fun s => ⟨s.dumpUpTo (x.toNat + 1), rfl, ?_⟩⟩
  obtain ⟨hrec, hread, -⟩ := dumpUpTo_spec s (x.toNat + 1) x.isLt
  refine ⟨fun k hk => ?_, ?_, (frame_dumpUpTo s (x.toNat + 1) x.isLt).mono fun q hq => hq.imp_right ?_⟩
  · rw [hread k.toNat ((nibble_le_iff_lt_succ k x).mp hk), BitVec.ofNat_toNat, BitVec.setWidth_eq]
  · rw [hrec, i_add_succ]
  · rintro ⟨k, hk, hcell⟩
    exact ⟨k, Nat.lt_succ_iff.mp hk, hcell⟩

/-- Settles O52: the load of the first x + 1 registers, each from the byte its spec names. -/
theorem loadFillsV0ToVx : Obligations.LoadFillsV0ToVx := by
  refine fun x => ⟨Laws.RoundTrip.load x rfl, fun s => ⟨s.loadUpTo (x.toNat + 1), rfl, ?_⟩⟩
  obtain ⟨hrec, hget⟩ := loadUpTo_spec s (x.toNat + 1) x.isLt
  refine ⟨fun k hk => ?_, ?_, (frame_loadUpTo s (x.toNat + 1) x.isLt).mono fun q hq => hq.imp_right ?_⟩
  · rw [hget, if_pos ((nibble_le_iff_lt_succ k x).mp hk)]
  · rw [hrec, i_add_succ]
  · rintro ⟨r, hr, hreg⟩
    exact ⟨r, (nibble_le_iff_lt_succ r x).mpr hr, hreg⟩

/-- Settles O48. -/
theorem ldISetsI : Obligations.LdISetsI := fun nnn =>
  ⟨Laws.RoundTrip.ldI nnn rfl, fun s => ⟨s.setI (zextAddr nnn), rfl, zextAddr_toNat nnn, frame_setI s _⟩⟩

/-- Settles O49: the sum is taken of the old Vx, so the flag may go to Vx itself when x is 15. -/
theorem addIWithOverflow : Obligations.AddIWithOverflow := by
  refine fun x => ⟨Laws.RoundTrip.addI x rfl, fun s => ⟨_, rfl, ?_, ?_, ?_⟩⟩
  · exact Flags.addIndex_fst_toNat s.i (s.getV x)
  · rw [State.setI_getV, State.getV_setV_same]
    exact Flags.toByte_toNat_of_iff (Flags.addIndex_snd_iff s.i (s.getV x))
  · exact ((frame_setV s vf _).mono fun _ h => .inr h).trans ((frame_setI _ _).mono fun _ h => .inl h)

/-- Settles O50: the digits of a byte do not wrap, and each store is read back. -/
theorem bcdStoresTheDigits : Obligations.BcdStoresTheDigits := by
  refine fun x => ⟨Laws.RoundTrip.bcd x rfl, fun s => ⟨s.storeDigits (s.getV x), rfl, ?_⟩⟩
  obtain ⟨hhundreds, htens, hunits⟩ := s.memRead_storeDigits (s.getV x)
  rw [hhundreds, htens, hunits]
  exact ⟨BitVec.toNat_udiv, BitVec.toNat_umod.trans (congrArg (· % 10) BitVec.toNat_udiv), BitVec.toNat_umod,
    frame_storeDigits s (s.getV x)⟩

end Sys2Proof.Machine

/-! ### The host's events (`60_exceptions.md`) -/

namespace Sys2Proof.Machine

theorem deliver_keyUp (k : Nibble) (s : State) : deliver (.keyUp k) s = .next (s.setKey k false) := rfl

/-- Settles O44: a key-up is one write of the key's bit, so the bit reads back and the frame is that of the write. -/
theorem keyUpClearsTheKey : Obligations.KeyUpClearsTheKey := fun s k =>
  ⟨s.setKey k false, deliver_keyUp k s, (s.key_setKey k k false).trans (if_pos rfl), frame_setKey s k false⟩

end Sys2Proof.Machine

/-! ### The encoder against the decoder (`30_encoding.md`)

Reading back an encoded instruction, the disjointness of the rows of the dispatch table, and the size of each class of
R75's table. -/

namespace Sys2Proof

/-- A well-formed instruction is read back from its word (R72, R77). -/
theorem decodeWord_encode (ins : Instr) (h : ins.wf = true) : decodeWord (encode ins) = ins := by
  cases ins with
  | cls => exact Laws.RoundTrip.cls h
  | ret => exact Laws.RoundTrip.ret h
  | jp nnn => exact Laws.RoundTrip.jp nnn h
  | jpV0 nnn => exact Laws.RoundTrip.jpV0 nnn h
  | call nnn => exact Laws.RoundTrip.call nnn h
  | ldVxK x => exact Laws.RoundTrip.ldVxK x h
  | ldImm x kk => exact Laws.RoundTrip.ldImm x kk h
  | ldReg x y => exact Laws.RoundTrip.ldReg x y h
  | addImm x kk => exact Laws.RoundTrip.addImm x kk h
  | or x y => exact Laws.RoundTrip.or x y h
  | and x y => exact Laws.RoundTrip.and x y h
  | xor x y => exact Laws.RoundTrip.xor x y h
  | addReg x y => exact Laws.RoundTrip.addReg x y h
  | sub x y => exact Laws.RoundTrip.sub x y h
  | subn x y => exact Laws.RoundTrip.subn x y h
  | shr x y => exact Laws.RoundTrip.shr x y h
  | shl x y => exact Laws.RoundTrip.shl x y h
  | rnd x kk => exact Laws.RoundTrip.rnd x kk h
  | drw x y n => exact Laws.RoundTrip.drw x y n h
  | ldF x => exact Laws.RoundTrip.ldF x h
  | ldVxDt x => exact Laws.RoundTrip.ldVxDt x h
  | ldDtVx x => exact Laws.RoundTrip.ldDtVx x h
  | ldStVx x => exact Laws.RoundTrip.ldStVx x h
  | ldI nnn => exact Laws.RoundTrip.ldI nnn h
  | addI x => exact Laws.RoundTrip.addI x h
  | seImm x kk => exact Laws.RoundTrip.seImm x kk h
  | sneImm x kk => exact Laws.RoundTrip.sneImm x kk h
  | seReg x y => exact Laws.RoundTrip.seReg x y h
  | sneReg x y => exact Laws.RoundTrip.sneReg x y h
  | skp x => exact Laws.RoundTrip.skp x h
  | sknp x => exact Laws.RoundTrip.sknp x h
  | bcd x => exact Laws.RoundTrip.bcd x h
  | dump x => exact Laws.RoundTrip.dump x h
  | load x => exact Laws.RoundTrip.load x h
  | nopUnmatched w => exact Laws.RoundTrip.nopUnmatched w h

/-- Every word decodes to a well-formed instruction that encodes to it: a row that holds is sound, and a word no row
holds of is in R75's table. -/
theorem decodeWord_sound (w : Word) : (decodeWord w).wf = true ∧ encode (decodeWord w) = w := by
  rcases dispatch_cases dispatchTable (fieldsOf w) with ⟨r, hr, hholds, heq⟩ | ⟨hnone, heq⟩
  · rw [decodeWord, heq]
    exact rows_sound w r hr hholds
  · rw [decodeWord, heq]
    exact ⟨unmatched_of_no_row w hnone, rfl⟩

/-- The no-op and R75's table name the same words. -/
theorem decodeWord_eq_nopUnmatched_iff (w : Word) : decodeWord w = .nopUnmatched w ↔ isUnmatched w = true := by
  constructor
  · intro h
    have hwf := (decodeWord_sound w).1
    rwa [h] at hwf
  · exact Laws.RoundTrip.nopUnmatched w

/-! #### Rows that exclude each other -/

/-- The two tests ask different values of the same field. -/
def SubTest.excludes : SubTest → SubTest → Bool
  | .nnnIs a, .nnnIs b => a != b
  | .pIs a, .pIs b => a != b
  | .kkIs a, .kkIs b => a != b
  | _, _ => false

/-- The two rows are of different classes, or ask different values of the same field. -/
def Row.excludes (r q : Row) : Bool := r.u != q.u || r.sub.excludes q.sub

theorem SubTest.not_holds_of_excludes {t t' : SubTest} {f : Fields} (h : t.excludes t' = true)
    (ht : t.holds f = true) : t'.holds f = false := by
  have hother : ∀ {n} {v a b : BitVec n}, (a != b) = true → (v == a) = true → (v == b) = false := by
    intro n v a b hne heq
    rw [← beq_iff_eq.mp heq] at hne
    exact beq_eq_false_iff_ne.mpr (bne_iff_ne.mp hne)
  unfold SubTest.excludes at h
  split at h
  · exact hother h ht
  · exact hother h ht
  · exact hother h ht
  · cases h

theorem Row.not_holds_of_excludes {r q : Row} {f : Fields} (h : r.excludes q = true) (hr : r.holds f = true) :
    q.holds f = false := by
  obtain ⟨hu, hsub⟩ := (r.holds_iff f).mp hr
  rw [Row.excludes, Bool.or_eq_true, bne_iff_ne] at h
  rw [← Bool.not_eq_true, Row.holds_iff]
  rintro ⟨hu', hsub'⟩
  rcases h with hne | hex
  · exact hne (hu.symm.trans hu')
  · exact absurd hsub' (by simp [SubTest.not_holds_of_excludes hex hsub])

/-- "No two predicates hold for one opcode" (R77): every row of the table excludes every later one. -/
theorem dispatchTable_pairwise_excludes : dispatchTable.Pairwise fun r q => r.excludes q = true := by
  decide

theorem dispatchTable_index_unique (f : Fields) (j k : Fin dispatchTable.length)
    (hj : dispatchTable[j].holds f = true) (hk : dispatchTable[k].holds f = true) : j = k := by
  have hlater : ∀ {a b : Fin dispatchTable.length}, dispatchTable[a].holds f = true →
      dispatchTable[b].holds f = true → ¬ a < b := fun {a b} ha hb hlt => by
    have hex := List.pairwise_iff_getElem.mp dispatchTable_pairwise_excludes a b a.isLt b.isLt hlt
    exact absurd hb (by simp [Row.not_holds_of_excludes hex ha])
  exact le_antisymm (not_lt.mp (hlater hk hj)) (not_lt.mp (hlater hj hk))

theorem dispatchTable_row_unique (f : Fields) {r q : Row} (hr : r ∈ dispatchTable) (hq : q ∈ dispatchTable)
    (hholds : r.holds f = true) (hholds' : q.holds f = true) : r = q := by
  obtain ⟨j, hj, rfl⟩ := List.getElem_of_mem hr
  obtain ⟨k, hk, rfl⟩ := List.getElem_of_mem hq
  have hjk := dispatchTable_index_unique f ⟨j, hj⟩ ⟨k, hk⟩ hholds hholds'
  simp only [Fin.mk.injEq] at hjk
  simp only [hjk]

/-- Where one row at most holds, dispatch depends on the rows only as a set. -/
theorem dispatch_congr {rows rows' : List Row} {f : Fields} (hmem : ∀ r, r ∈ rows ↔ r ∈ rows')
    (hunique : ∀ r ∈ rows', ∀ q ∈ rows', r.holds f = true → q.holds f = true → r = q) :
    dispatch rows f = dispatch rows' f := by
  rcases dispatch_cases rows f with ⟨r, hr, hholds, heq⟩ | ⟨hnone, heq⟩
  · rcases dispatch_cases rows' f with ⟨q, hq, hholds', heq'⟩ | ⟨hnone', -⟩
    · rw [heq, heq', hunique r ((hmem r).mp hr) q hq hholds hholds']
    · exact absurd hholds (by simp [hnone' r ((hmem r).mp hr)])
  · rcases dispatch_cases rows' f with ⟨q, hq, hholds', -⟩ | ⟨-, heq'⟩
    · exact absurd hholds' (by simp [hnone q ((hmem q).mpr hq)])
    · rw [heq, heq']

/-! #### How many words each class of R75's table has -/

/-- A periodic property holds as often in each period as in the first. -/
theorem countP_range_mul_of_periodic (p : Nat → Bool) (period : Nat) (hp : ∀ n, p (period + n) = p n) (k : Nat) :
    (List.range (k * period)).countP p = k * (List.range period).countP p := by
  have hshift : ∀ m n, p (m * period + n) = p n := fun m n => by
    induction m with
    | zero => rw [Nat.zero_mul, Nat.zero_add]
    | succ m ih => rw [Nat.succ_mul, Nat.add_comm (m * period), Nat.add_assoc, hp, ih]
  induction k with
  | zero => simp
  | succ k ih =>
    have hlast : ((List.range period).map (k * period + ·)).countP p = (List.range period).countP p := by
      rw [List.countP_map]
      exact congrArg (List.countP · _) (funext (hshift k))
    rw [Nat.succ_mul, List.range_add, List.countP_append, ih, hlast, Nat.succ_mul]

/-- The words of class 0 but for two. -/
theorem countP_range_ne_ne {n a b : Nat} (ha : a < n) (hb : b < n) (hab : a ≠ b) :
    (List.range n).countP (fun m => m != a && m != b) = n - 2 := by
  have hnodup := List.nodup_range (n := n)
  rw [List.countP_eq_length_filter, ← List.filter_filter, ← hnodup.erase_eq_filter b,
    ← (hnodup.erase b).erase_eq_filter a,
    List.length_erase_of_mem ((List.mem_erase_of_ne hab).mpr (List.mem_range.mpr ha)),
    List.length_erase_of_mem (List.mem_range.mpr hb), List.length_range, Nat.sub_sub]

/-- R75's table class by class, as a test of the low 12 bits. -/
def unmatchedInClass (u n : Nat) : Bool :=
  match u with
  | 0x0 => n != 0x0E0 && n != 0x0EE
  | 0x5 => n % 16 != 0
  | 0x8 => n % 16 ∈ [0x8, 0x9, 0xA, 0xB, 0xC, 0xD, 0xF]
  | 0x9 => n % 16 != 0
  | 0xE => n % 256 != 0x9E && n % 256 != 0xA1
  | 0xF => n % 256 ∉ [0x07, 0x0A, 0x15, 0x18, 0x1E, 0x29, 0x33, 0x55, 0x65]
  | _ => false

theorem isUnmatched_ofNat (u : Fin 16) {n : Nat} (hn : n < 4096) :
    isUnmatched (BitVec.ofNat 16 (u.val * 4096 + n)) = unmatchedInClass u.val n := by
  have hw : (BitVec.ofNat 16 (u.val * 4096 + n)).toNat = u.val * 4096 + n := by
    rw [BitVec.toNat_ofNat]; omega
  have hclass : (u.val * 4096 + n) / 4096 = u.val := by omega
  have hp : (u.val * 4096 + n) % 16 = n % 16 := by omega
  have hkk : (u.val * 4096 + n) % 256 = n % 256 := by omega
  have hnnn : (u.val * 4096 + n) % 4096 = n := by omega
  simp only [isUnmatched, hw, hclass, hp, hkk, hnnn]
  rfl

/-- The number of unmatched words of a class (R75). -/
theorem length_filter_isUnmatched (u : Fin 16) :
    ((List.range 4096).filter fun n => isUnmatched (BitVec.ofNat 16 (u.val * 4096 + n))).length =
      (List.range 4096).countP (unmatchedInClass u.val) := by
  rw [← List.countP_eq_length_filter]
  exact List.countP_congr fun n hn => by rw [isUnmatched_ofNat u (List.mem_range.mp hn)]

theorem countP_unmatchedInClass (u : Fin 16) : (List.range 4096).countP (unmatchedInClass u.val) =
    match u.val with
    | 0x0 => 4094 | 0x5 => 3840 | 0x8 => 1792 | 0x9 => 3840 | 0xE => 4064 | 0xF => 3952 | _ => 0 := by
  have hp : ∀ f : Nat → Bool, (List.range 4096).countP (fun n => f (n % 16)) =
      256 * (List.range 16).countP (fun n => f (n % 16)) := fun f =>
    countP_range_mul_of_periodic _ 16 (fun n => by rw [Nat.add_mod_left]) 256
  have hkk : ∀ f : Nat → Bool, (List.range 4096).countP (fun n => f (n % 256)) =
      16 * (List.range 256).countP (fun n => f (n % 256)) := fun f =>
    countP_range_mul_of_periodic _ 256 (fun n => by rw [Nat.add_mod_left]) 16
  have hnone : (List.range 4096).countP (fun _ => false) = 0 := congrFun List.countP_false _
  fin_cases u
  · exact countP_range_ne_ne (by decide) (by decide) (by decide)
  · exact hnone
  · exact hnone
  · exact hnone
  · exact hnone
  · exact (hp (· != 0)).trans (by decide)
  · exact hnone
  · exact hnone
  · exact (hp (· ∈ [0x8, 0x9, 0xA, 0xB, 0xC, 0xD, 0xF])).trans (by decide)
  · exact (hp (· != 0)).trans (by decide)
  · exact hnone
  · exact hnone
  · exact hnone
  · exact hnone
  · exact (hkk (fun kk => kk != 0x9E && kk != 0xA1)).trans (by decide +kernel)
  · exact (hkk (· ∉ [0x07, 0x0A, 0x15, 0x18, 0x1E, 0x29, 0x33, 0x55, 0x65])).trans (by decide +kernel)

/-- Settles O1: the word is read back constructor by constructor, and its two bytes are read as that word. -/
theorem decodeEncodeRoundTrip : Obligations.DecodeEncodeRoundTrip := by
  intro ins rest hwf
  have hword := decodeWord_encode ins hwf
  exact ⟨hword, by rw [decodeBytes_encodeBytes, hword]⟩

/-- Settles O2. -/
theorem everyOpcodeDecodesAndReencodes : Obligations.EveryOpcodeDecodesAndReencodes := decodeWord_sound

/-- Settles O3: one row at most holds, so a list of the same rows dispatches alike. -/
theorem dispatchRowOrderNeverMatters : Obligations.DispatchRowOrderNeverMatters := by
  refine fun w => ⟨dispatchTable_index_unique (fieldsOf w), fun rows hperm => ?_⟩
  exact dispatch_congr (fun _ => hperm.mem_iff) fun r hr q hq => dispatchTable_row_unique (fieldsOf w) hr hq

/-- Settles O4: the counts are by period, 16 for the classes that test `p` and 256 for those that test `kk`. -/
theorem unmatchedOpcodesAreTheTable : Obligations.UnmatchedOpcodesAreTheTable :=
  ⟨decodeWord_eq_nopUnmatched_iff, fun u => (length_filter_isUnmatched u).trans (countP_unmatchedInClass u)⟩

/-- Settles O6: nine evaluations of the decoder. -/
theorem sampleOpcodesDecode : Obligations.SampleOpcodesDecode := by
  unfold Obligations.SampleOpcodesDecode
  decide

end Sys2Proof

/-! ### What a step and an action can do

Said once: the two branches of the step, the one way an action is refused, and its frame, from which the wait, the
parameters and the effects of the host's events follow. -/

namespace Sys2Proof.Machine

/-! #### The step -/

theorem step_of_waiting {s : State} (h : s.waiting = true) : step s = .next s := if_pos h

theorem step_of_running {s : State} (h : s.waiting = false) : step s = exec s.fetchedInstr s.advancePc :=
  if_neg (by simp [h])

/-- Bit 7 of the flag as a number (R31). -/
theorem State.waiting_iff (s : State) : s.waiting = true ↔ 128 ≤ s.wk.toNat := by
  have hlt := s.wk.isLt
  rw [State.waiting, BitVec.getLsbD, Nat.testBit_eq_decide_div_mod_eq, decide_eq_true_iff]
  omega

theorem State.not_waiting_iff (s : State) : s.waiting = false ↔ s.wk.toNat < 128 := by
  rw [← Bool.not_eq_true, State.waiting_iff, not_le]

/-- An action answers a next state, or it is the no-op under the policy `refuse` (R76). -/
theorem exec_cases (ins : Instr) (s : State) :
    (∃ t, exec ins s = .next t) ∨
      ∃ w, ins = .nopUnmatched w ∧ s.params.unlistedPolicy = .refuse ∧ exec ins s = .refused (.unlistedOpcode w) := by
  cases ins with
  | nopUnmatched w =>
    cases hpol : s.params.unlistedPolicy with
    | nop => exact .inl ⟨s, by simp only [exec, execNopUnmatched, hpol]⟩
    | refuse => exact .inr ⟨w, rfl, rfl, by simp only [exec, execNopUnmatched, hpol]⟩
  | _ => exact .inl ⟨_, rfl⟩

theorem exec_nopUnmatched_of_nop {s : State} (h : s.params.unlistedPolicy = .nop) (w : Word) :
    exec (.nopUnmatched w) s = .next s := by
  simp only [exec, execNopUnmatched, h]

theorem exec_nopUnmatched_of_refuse {s : State} (h : s.params.unlistedPolicy = .refuse) (w : Word) :
    exec (.nopUnmatched w) s = .refused (.unlistedOpcode w) := by
  simp only [exec, execNopUnmatched, h]

/-- A no-op that answers a next state answers the same state. -/
theorem eq_of_exec_nopUnmatched {w : Word} {s t : State} (h : exec (.nopUnmatched w) s = .next t) : t = s := by
  cases hpol : s.params.unlistedPolicy with
  | nop => exact (Host.Outcome.next.inj ((exec_nopUnmatched_of_nop hpol w).symm.trans h)).symm
  | refuse => exact nomatch (exec_nopUnmatched_of_refuse hpol w).symm.trans h

/-! #### The frame of every action (R38) -/

/-- A covered pixel is one of those the w entries of R38 name. -/
theorem State.target_of_spriteCovers {s : State} {x y n : Nibble} {row : Screen.Row} {col : Screen.Col}
    (h : s.spriteCovers x y n row col) : ∃ r c, r < n.toNat ∧ c < 8 ∧ Part.pixel row col = s.target x y r c := by
  obtain ⟨r, c, hr, hc, -, hrow, hcol⟩ := h
  exact ⟨r, c, hr, hc, congrArg₂ Part.pixel (Fin.ext hrow) (Fin.ext hcol)⟩

/-- The state that Dxyn answers (R151). -/
def State.drawn (s : State) (x y n : Nibble) : State :=
  (s.setDisp (s.blit x y n).disp).setV vf (Flags.toByte (s.blit x y n).hit)

theorem exec_drw (x y n : Nibble) (s : State) : exec (.drw x y n) s = .next (s.drawn x y n) := rfl

/-- The frame of a draw, pixel by pixel (R151). -/
theorem State.frame_drawn (s : State) (x y n : Nibble) :
    Frame s (s.drawn x y n) (fun q => q = .v 15 ∨ ∃ row col, q = .pixel row col ∧ s.spriteCovers x y n row col) :=
  ((frame_setDisp s _ _ (s.blit_blits x y n).uncovered).mono fun _ h => .inr h).trans
    ((frame_setV _ vf _).mono fun _ h => .inl h)

theorem frame_exec {ins : Instr} {s t : State} (h : exec ins s = .next t) : Frame s t (writes ins s) := by
  cases ins with
  | cls => cases h; exact frame_setDisp_pixels s Screen.blank
  | ret => cases h; exact frame_popPc s
  | jp nnn => cases h; exact frame_setPc s _
  | jpV0 nnn => cases h; exact frame_setPc s _
  | call nnn =>
    cases h
    exact ((frame_push s s.linkValue).mono fun _ h => .inr h).trans ((frame_setPc _ _).mono fun _ h => .inl h)
  | ldVxK x => cases h; exact frame_setWk s _
  | ldImm x kk => cases h; exact frame_setV s x _
  | ldReg x y => cases h; exact frame_setV s x _
  | addImm x kk => cases h; exact frame_setV s x _
  | or x y => cases h; exact frame_setV s x _
  | and x y => cases h; exact frame_setV s x _
  | xor x y => cases h; exact frame_setV s x _
  | addReg x y => cases h; exact frame_writeFlagThenResult s x _
  | sub x y => cases h; exact frame_writeFlagThenResult s x _
  | subn x y => cases h; exact frame_writeFlagThenResult s x _
  | shr x y => cases h; exact frame_writeFlagThenResult s x _
  | shl x y => cases h; exact frame_writeFlagThenResult s x _
  | rnd x kk =>
    cases h
    exact ((frame_setV s x _).mono fun _ h => .inl h).trans ((frame_countDraw _).mono fun _ h => .inr h)
  | drw x y n =>
    cases h
    refine (s.frame_drawn x y n).mono fun q hq => hq.imp_right ?_
    rintro ⟨row, col, rfl, hcov⟩
    exact State.target_of_spriteCovers hcov
  | ldF x => cases h; exact frame_setI s _
  | ldVxDt x => cases h; exact frame_setV s x _
  | ldDtVx x => cases h; exact frame_setDt s _
  | ldStVx x => cases h; exact frame_setSt s _
  | ldI nnn => cases h; exact frame_setI s _
  | addI x =>
    cases h
    exact ((frame_setV s vf _).mono fun _ h => .inr h).trans ((frame_setI _ _).mono fun _ h => .inl h)
  | seImm x kk => cases h; exact frame_skipIf s _
  | sneImm x kk => cases h; exact frame_skipIf s _
  | seReg x y => cases h; exact frame_skipIf s _
  | sneReg x y => cases h; exact frame_skipIf s _
  | skp x => cases h; exact frame_skipIf s _
  | sknp x => cases h; exact frame_skipIf s _
  | bcd x => cases h; exact frame_storeDigits s _
  | dump x =>
    cases h
    obtain ⟨t, ht, -, -, hframe⟩ := (dumpStoresV0ToVx x).2 s
    cases ht
    exact hframe
  | load x =>
    cases h
    obtain ⟨t, ht, -, -, hframe⟩ := (loadFillsV0ToVx x).2 s
    cases ht
    exact hframe
  | nopUnmatched w => rw [eq_of_exec_nopUnmatched h]; exact Frame.refl s _

/-- Only Fx0A writes the flag (R175). -/
theorem exists_ldVxK_of_writes_wk {ins : Instr} {s : State} (h : writes ins s .wk) : ∃ x, ins = .ldVxK x := by
  cases ins with
  | ldVxK x => exact ⟨x, rfl⟩
  | _ => simp [writes, State.target, State.cell] at h

/-- A frame that leaves out the flag keeps the core waiting or running. -/
theorem Frame.waiting_eq {s t : State} {named : Part → Prop} (h : Frame s t named) (hwk : ¬ named .wk) :
    t.waiting = s.waiting := by
  have heq : t.wk = s.wk := BitVec.eq_of_toNat_eq (h.2 .wk hwk)
  rw [State.waiting, State.waiting, heq]

/-- Settles O17: the updates of each action have the frames that R38 names. -/
theorem instructionsWriteOnlyTheirParts : Obligations.InstructionsWriteOnlyTheirParts :=
  fun _ _ _ h => frame_exec h

/-- What a step can do: it answers a next state, or the word fetched is in R75's table and the policy refuses it. -/
theorem step_cases (s : State) :
    (∃ t, step s = .next t) ∨
      s.params.unlistedPolicy = .refuse ∧ isUnmatched s.fetchedWord = true ∧
        step s = .refused (.unlistedOpcode s.fetchedWord) := by
  cases hw : s.waiting with
  | true => exact .inl ⟨s, step_of_waiting hw⟩
  | false =>
    rw [step_of_running hw]
    refine (exec_cases s.fetchedInstr s.advancePc).imp_right ?_
    rintro ⟨w, hins, hpol, hexec⟩
    obtain ⟨hwf, henc⟩ := decodeWord_sound s.fetchedWord
    rw [show decodeWord s.fetchedWord = _ from hins] at hwf henc
    obtain rfl : w = s.fetchedWord := henc
    exact ⟨hpol, hwf, hexec⟩

/-- Settles O10, from the two things a step can do. -/
theorem noStepFaults : Obligations.NoStepFaults := by
  intro s
  rcases step_cases s with ⟨t, ht⟩ | ⟨hpol, hunm, href⟩
  · exact ⟨fun _ => ⟨t, ht⟩, fun _ => ⟨t, ht⟩, by simp [ht], by simp [ht]⟩
  · refine ⟨by simp [hpol], by simp [hunm], by simp [href], fun r h => ⟨?_, hpol, hunm⟩⟩
    exact (Host.Outcome.refused.inj (href.symm.trans h)).symm

/-- Settles O54. -/
theorem unmatchedOpcodesDoNothing : Obligations.UnmatchedOpcodesDoNothing := fun w h =>
  ⟨(decodeWord_eq_nopUnmatched_iff w).mpr h, fun _ =>
    ⟨fun hnop => exec_nopUnmatched_of_nop hnop w, fun href => exec_nopUnmatched_of_refuse href w⟩⟩

/-! #### The word at PC -/

/-- The fetch reads the bytes of an encoded instruction as that instruction (R73). -/
theorem State.fetchedInstr_of_bytes {s : State} {ins : Instr} (hwf : ins.wf = true)
    (h : encodeBytes ins = [s.memRead s.pc.toNat, s.memRead (s.pc.toNat + 1)]) : s.fetchedInstr = ins := by
  have hbytes : (bytesOfWord (encode ins)).1 = s.memRead s.pc.toNat ∧
      (bytesOfWord (encode ins)).2 = s.memRead (s.pc.toNat + 1) := by
    simpa [encodeBytes] using h
  rw [State.fetchedInstr, State.fetchedWord, State.fetch16, ← hbytes.1, ← hbytes.2, wordOfBytes_bytesOfWord,
    decodeWord_encode ins hwf]

/-- A placed word is the word fetched there, since its two addresses differ also mod 4096. -/
theorem State.fetch16_placeWord (s : State) (a : Nat) (w : Word) : (s.placeWord a w).fetch16 a = w := by
  have hne : a % 4096 ≠ (a + 1) % 4096 := by omega
  simp only [State.fetch16, State.placeWord, State.storeBytes, State.memRead_memWrite, hne, if_true, if_false,
    wordOfBytes_bytesOfWord]

theorem tableWord_toNat (w : Word) : tableWord 16 w.toNat = w := by
  rw [tableWord, Nat.mod_eq_of_lt w.isLt, BitVec.ofNat_toNat, BitVec.setWidth_eq]

/-- The wait is over once bit 7 of the flag is cleared (R176). -/
theorem State.waiting_clearWait (s : State) : s.clearWait.waiting = false := by
  rw [State.waiting, State.clearWait_wk, BitVec.getLsbD_and]
  exact Bool.and_false _

/-- Settles O8: the two bytes are the fetched word, whose decoding is the instruction they encode. -/
theorem stepRunsDecodedInstruction : Obligations.StepRunsDecodedInstruction := by
  refine ⟨fun s ins hwk hwf hbytes => ?_, fun s hwk => step_of_waiting (s.waiting_iff.mpr hwk)⟩
  rw [State.memRead_mod, State.memRead_mod] at hbytes
  rw [step_of_running (s.not_waiting_iff.mpr hwk), State.fetchedInstr_of_bytes hwf hbytes]
  have hpc : s.pc + 2 = BitVec.ofNat 16 (s.pc.toNat + 2) := BitVec.eq_of_toNat_eq (by simp)
  rw [State.advancePc, hpc]

/-- Settles O9: the placed word is fetched back, the wait is over, and only the flag and the two bytes are written. -/
theorem placedWordRunsNext : Obligations.PlacedWordRunsNext := by
  intro s w
  refine ⟨_, rfl, ?_, ?_⟩
  · rw [State.withFetchWord, tableWord_toNat, step_of_running (State.waiting_clearWait _)]
    exact congrArg (fun u => exec (decodeWord u) _) (s.fetch16_placeWord s.pc.toNat w)
  · refine ((frame_storeBytes s s.pc.toNat _).mono ?_).trans ((frame_setWk _ _).mono fun _ h => .inl h)
    rintro q ⟨k, hk, rfl⟩
    have hk2 : k < 2 := hk
    interval_cases k
    · exact .inr (.inl rfl)
    · exact .inr (.inr rfl)

/-- Settles O27: the word at PC is the encoding of the jump to PC, whose 12 bits name PC itself. -/
theorem finalStatesStepToThemselves : Obligations.FinalStatesStepToThemselves := by
  intro s hw hpc hword
  have hfetch : s.fetchedWord.toNat = 0x1000 + s.pc.toNat := (s.fetch16_toNat s.pc.toNat).trans hword
  have hlow : (BitVec.ofNat 12 s.pc.toNat).toNat = s.pc.toNat := by rw [BitVec.toNat_ofNat]; omega
  have hjp : s.fetchedInstr = .jp (BitVec.ofNat 12 s.pc.toNat) := by
    rw [State.fetchedInstr, ← Laws.RoundTrip.jp _ rfl]
    congr 1
    refine BitVec.eq_of_toNat_eq (hfetch.trans ?_)
    rw [encode, encNnn_toNat, hlow]
    rfl
  have hself : zextAddr (BitVec.ofNat 12 s.pc.toNat) = s.pc := BitVec.eq_of_toNat_eq ((zextAddr_toNat _).trans hlow)
  constructor
  · have hor : (0x1000 ||| s.pc).toNat = 0x1000 + s.pc.toNat := by
      rw [BitVec.toNat_or]
      exact (Nat.two_pow_add_eq_or_of_lt (i := 12) (by omega) 1).symm
    have heq : s.fetchedWord = 0x1000 ||| s.pc := BitVec.eq_of_toNat_eq (hfetch.trans hor.symm)
    simp [State.isFinal, hw, hpc, heq]
  · rw [step_of_running hw, hjp]
    show Host.Outcome.next (s.setPc (zextAddr (BitVec.ofNat 12 s.pc.toNat))) = .next s
    rw [hself]
    rfl

/-! #### The host's events -/

theorem countDown_toNat (t : Byte) (n : Nat) : (countDown t n).toNat = t.toNat - n := by
  have hlt := t.isLt
  rw [countDown, BitVec.toNat_ofNat]
  omega

theorem countDown_zero (t : Byte) : countDown t 0 = t := BitVec.eq_of_toNat_eq (countDown_toNat t 0)

theorem countDown_add (t : Byte) (m n : Nat) : countDown (countDown t m) n = countDown t (m + n) :=
  BitVec.eq_of_toNat_eq (by simp only [countDown_toNat, Nat.sub_sub])

/-- A tick, its guard dropped: a count of 0 changes nothing. -/
theorem State.tick_eq (s : State) (n : Nat) :
    s.tick n = (s.setDt (countDown s.dt n)).setSt (countDown s.st n) := by
  cases n with
  | zero => rw [countDown_zero, countDown_zero]; rfl
  | succ n => exact if_pos n.succ_pos

theorem State.tick_tick (s : State) (m n : Nat) : (s.tick m).tick n = s.tick (m + n) := by
  simp only [State.tick_eq, State.setSt_dt, State.setDt_dt, State.setSt_st, countDown_add]
  rfl

theorem frame_tick (s : State) (n : Nat) : Frame s (s.tick n) (fun q => q = .dt ∨ q = .st) := by
  rw [State.tick_eq]
  exact ((frame_setDt s _).mono fun _ h => .inl h).trans ((frame_setSt _ _).mono fun _ h => .inr h)

theorem run_cons {e : Event} {s t : State} (h : deliver e s = .next t) (rest : List Event) :
    run (e :: rest) s = run rest t := by
  rw [run, h]

/-- `n` events `tick(1)` are one `tick(n)` (R217). -/
theorem run_replicate_tick_one (n : Nat) (s : State) : run (List.replicate n (.tick 1)) s = .next (s.tick n) := by
  induction n generalizing s with
  | zero => rfl
  | succ n ih =>
    rw [List.replicate_succ, run_cons (t := s.tick 1) rfl, ih, State.tick_tick, Nat.add_comm]

theorem State.keyDown_of_running {s : State} (h : s.waiting = false) (k : Nibble) : s.keyDown k = s.setKey k true :=
  if_neg (by simp [show (s.setKey k true).waiting = false from h])

theorem State.keyDown_of_waiting {s : State} (h : s.waiting = true) (k : Nibble) :
    s.keyDown k = (s.setKey k true).resolveWait k := if_pos h

/-- What an event does to the wait: it enters it by Fx0A, leaves it by a key-down, or leaves it alone. -/
theorem deliver_wait_cases {e : Event} {s t : State} (h : deliver e s = .next t) :
    t.waiting = s.waiting ∨ (s.waiting = false ∧ e = .step ∧ ∃ x, s.fetchedInstr = .ldVxK x) ∨
      (s.waiting = true ∧ ∃ k, e = .keyDown k) := by
  cases e with
  | step =>
    cases hw : s.waiting with
    | true => cases (step_of_waiting hw).symm.trans h; exact .inl hw
    | false =>
      have hexec : exec s.fetchedInstr s.advancePc = .next t := (step_of_running hw).symm.trans h
      by_cases hwk : writes s.fetchedInstr s.advancePc .wk
      · exact .inr (.inl ⟨rfl, rfl, exists_ldVxK_of_writes_wk hwk⟩)
      · exact .inl (((frame_exec hexec).waiting_eq hwk).trans hw)
  | load o image =>
    cases h
    exact .inl ((frame_storeBytes s o.toNat image).waiting_eq (by simp))
  | keyDown k =>
    cases h
    cases hw : s.waiting with
    | true => exact .inr (.inr ⟨rfl, k, rfl⟩)
    | false => rw [State.keyDown_of_running hw]; exact .inl hw
  | keyUp k => cases h; exact .inl rfl
  | tick n => cases h; exact .inl ((frame_tick s n).waiting_eq (by simp))
  | render => cases h; exact .inl rfl

/-- Settles O42: an event that changes whether the core waits is a step of Fx0A or a key-down. -/
theorem onlyKeyDownEndsTheWait : Obligations.OnlyKeyDownEndsTheWait := by
  intro e s t h
  refine ⟨fun hs ht => ?_, fun hs ht => ?_, fun hs he => ?_, fun n he => ?_⟩
  · rcases deliver_wait_cases h with heq | ⟨-, hstep⟩ | ⟨hs', -⟩
    · simp [heq, hs] at ht
    · exact hstep
    · simp [hs] at hs'
  · rcases deliver_wait_cases h with heq | ⟨hs', -⟩ | ⟨-, hkey⟩
    · simp [heq, hs] at ht
    · simp [hs] at hs'
    · exact hkey
  · subst he
    exact (Host.Outcome.next.inj ((step_of_waiting hs).symm.trans h)).symm
  · subst he
    cases h
    rw [State.tick_eq]
    exact ⟨countDown_toNat s.dt n, countDown_toNat s.st n⟩

/-- Settles O45. -/
theorem tickCountsTheTimersDown : Obligations.TickCountsTheTimersDown := by
  refine fun s n => ⟨s.tick n, rfl, ?_, ?_, frame_tick s n, run_replicate_tick_one n s⟩
  · rw [State.tick_eq]; exact countDown_toNat s.dt n
  · rw [State.tick_eq]; exact countDown_toNat s.st n

end Sys2Proof.Machine

/-! ### The invariant along every run (`10_state.md`, `20_memory.md`, `70_reset_and_hazards.md`)

The invariant under every action and event, the one induction over events, and the canonical form of memory as an
extensional one. -/

namespace Sys2Proof.Machine

theorem State.Inv.setWk {s : State} (h : s.Inv) (x : Nibble) : (s.setWk (0x80 ||| zextNibble x)).Inv :=
  ⟨h.mem_wf, dest_legal_wait x, h.sp_legal, h.stack_fits⟩

/-- Every action keeps the invariant (R26, R27, R31, R51): those that write none of its parts, and the others one by
one. -/
theorem State.Inv.exec {ins : Instr} {s t : State} (hs : s.Inv) (h : exec ins s = .next t) : t.Inv := by
  cases ins with
  | ret => cases h; exact hs.popPc
  | call nnn => cases h; exact (hs.push s.linkValue).congr rfl rfl rfl rfl rfl
  | ldVxK x => cases h; exact hs.setWk x
  | bcd x => cases h; exact hs.storeDigits (s.getV x)
  | dump x => cases h; exact hs.dumpUpTo (x.toNat + 1)
  | load x => cases h; exact hs.loadUpTo (x.toNat + 1)
  | seImm x kk => cases h; exact hs.skipIf _
  | sneImm x kk => cases h; exact hs.skipIf _
  | seReg x y => cases h; exact hs.skipIf _
  | sneReg x y => cases h; exact hs.skipIf _
  | skp x => cases h; exact hs.skipIf _
  | sknp x => cases h; exact hs.skipIf _
  | nopUnmatched w => rwa [eq_of_exec_nopUnmatched h]
  | _ => cases h; exact hs.congr rfl rfl rfl rfl rfl

/-- A step keeps the invariant, and by its frame the parameters (R36). -/
theorem State.Inv.step {s t : State} (hs : s.Inv) (h : step s = .next t) : t.Inv ∧ t.params = s.params := by
  cases hw : s.waiting with
  | true =>
    obtain rfl := Host.Outcome.next.inj ((step_of_waiting hw).symm.trans h)
    exact ⟨hs, rfl⟩
  | false =>
    have hexec : Machine.exec s.fetchedInstr s.advancePc = .next t := (step_of_running hw).symm.trans h
    have hadv : s.advancePc.Inv := hs.congr rfl rfl rfl rfl rfl
    exact ⟨hadv.exec hexec, (frame_exec hexec).1⟩

theorem State.Inv.keyDown {s : State} (hs : s.Inv) (k : Nibble) :
    (s.keyDown k).Inv ∧ (s.keyDown k).params = s.params := by
  cases hw : s.waiting with
  | true =>
    rw [State.keyDown_of_waiting hw]
    have hset : ((s.setKey k true).setV (s.setKey k true).waitDest (zextNibble k)).Inv := hs.congr rfl rfl rfl rfl rfl
    exact ⟨hset.clearWait, rfl⟩
  | false =>
    rw [State.keyDown_of_running hw]
    exact ⟨hs.congr rfl rfl rfl rfl rfl, rfl⟩

theorem State.Inv.deliver {e : Event} {s t : State} (hs : s.Inv) (h : deliver e s = .next t) :
    t.Inv ∧ t.params = s.params := by
  cases e with
  | step => exact hs.step h
  | load o image => cases h; exact ⟨hs.storeBytes _ image, (frame_storeBytes s _ image).1⟩
  | keyDown k => cases h; exact hs.keyDown k
  | keyUp k => cases h; exact ⟨hs.congr rfl rfl rfl rfl rfl, rfl⟩
  | tick n => cases h; rw [State.tick_eq]; exact ⟨hs.congr rfl rfl rfl rfl rfl, rfl⟩
  | render => cases h; exact ⟨hs, rfl⟩

/-- A run that answers a next state has delivered its first event. -/
theorem exists_of_run_cons {e : Event} {rest : List Event} {s t : State} (h : run (e :: rest) s = .next t) :
    ∃ u, deliver e s = .next u ∧ run rest u = .next t := by
  rw [run] at h
  split at h
  · exact ⟨_, ‹_›, h⟩
  · cases h
  · cases h

theorem State.Inv.run {events : List Event} {s t : State} (hs : s.Inv) (h : run events s = .next t) :
    t.Inv ∧ t.params = s.params := by
  induction events generalizing s with
  | nil => cases h; exact ⟨hs, rfl⟩
  | cons e rest ih =>
    obtain ⟨u, hdeliver, hrest⟩ := exists_of_run_cons h
    obtain ⟨hu, hparams⟩ := hs.deliver hdeliver
    obtain ⟨ht, hparams'⟩ := ih hu hrest
    exact ⟨ht, hparams'.trans hparams⟩

theorem resetWith_inv {p : Config.Params} (h : p.spReset ≤ p.spMax) : (State.resetWith p).Inv := by
  refine ⟨Memory.wf_nil p, show (BitVec.extractLsb' 4 3 (0 : Byte)) = 0 by decide, h, fun j => ?_⟩
  simp only [State.resetWith, Fin.getElem_fin, Vector.getElem_replicate]
  exact Nat.two_pow_pos _

/-- Settles O12. -/
theorem stepKeepsInvariant : Obligations.StepKeepsInvariant := fun _ _ hs h => hs.step h

/-- Settles O11. -/
theorem resetMeetsInvariant : Obligations.ResetMeetsInvariant :=
  ⟨resetWith_inv (by decide), fun _ h => resetWith_inv h⟩

/-- Settles O13: by induction over the events, and a boot is a run from reset. -/
theorem everyRunKeepsInvariant : Obligations.EveryRunKeepsInvariant :=
  ⟨fun _ _ _ hs h => hs.run h, fun _ _ _ _ hsp h => (resetWith_inv hsp).run h⟩

/-! #### The canonical form of memory -/

/-- In a canonical memory an entry is listed exactly where the memory does not read as its contents after reset. -/
theorem Memory.mem_iff_of_wf {p : Config.Params} {m : Memory} (h : Memory.wf p m) (c : Host.Cell) :
    c ∈ m ↔ c.1 < 4096 ∧ Memory.read p m c.1 = c.2 ∧ c.2 ≠ Memory.background p c.1 := by
  obtain ⟨a, x⟩ := c
  obtain ⟨hsorted, hcells⟩ := h
  have hlookup := Memory.lookup_eq_some hsorted (a := a) (x := x)
  constructor
  · intro hmem
    obtain ⟨hlt, hne⟩ := hcells _ hmem
    refine ⟨hlt, ?_, hne⟩
    rw [Memory.read, Nat.mod_eq_of_lt hlt, hlookup.mpr hmem, Option.getD_some]
  · rintro ⟨hlt, hread, hne⟩
    rw [Memory.read, Nat.mod_eq_of_lt hlt] at hread
    cases hfound : Memory.lookup m a with
    | none => exact absurd (hread.symm.trans (by rw [hfound, Option.getD_none])) hne
    | some y =>
      rw [hfound, Option.getD_some] at hread
      exact hlookup.mp (hfound.trans (congrArg some hread))

theorem Memory.nodup_of_sorted {m : Memory} (h : m.Pairwise fun c d => c.1 < d.1) : m.Nodup :=
  h.imp fun hlt heq => absurd (congrArg Prod.fst heq) (Nat.ne_of_lt hlt)

/-- Settles O16: two strictly rising lists with the same members are the same list. -/
theorem canonicalMemoriesThatReadAlikeAreEqual : Obligations.CanonicalMemoriesThatReadAlikeAreEqual := by
  refine ⟨fun p m n hm hn hread => ?_, fun p m a x hm => Memory.wf_write hm a x⟩
  have hperm : m.Perm n := by
    refine (List.perm_ext_iff_of_nodup (Memory.nodup_of_sorted hm.1) (Memory.nodup_of_sorted hn.1)).mpr fun c => ?_
    rw [Memory.mem_iff_of_wf hm, Memory.mem_iff_of_wf hn]
    exact and_congr_right fun hlt => by rw [hread c.1 hlt]
  exact hperm.eq_of_pairwise (fun _ _ _ _ h h' => absurd h (Nat.lt_asymm h')) hm.1 hn.1

/-! #### Reset -/

theorem memRead_resetWith (p : Config.Params) (a : Nat) :
    (State.resetWith p).memRead a = Memory.background p (a % 4096) := rfl

/-- The font stands at `FONT_BASE` (R241). -/
theorem background_font (p : Config.Params) (k : Fin 80) :
    Memory.background p (p.fontBase.toNat + k) = p.fontData[k] := by
  have hk : (p.fontBase.toNat + k + 4096 - p.fontBase.toNat) % 4096 = k := by omega
  simp only [Memory.background, Memory.size, hk, k.isLt, dite_true, Fin.getElem_fin]

/-- Every other byte is 0 after reset, the font not wrapping (R59, R241). -/
theorem background_elsewhere {p : Config.Params} (hfits : p.fontBase.toNat + 80 ≤ 4096) {a : Nat} (ha : a < 4096)
    (h : a < p.fontBase.toNat ∨ p.fontBase.toNat + 80 ≤ a) : Memory.background p a = 0 := by
  have hk : ¬ (a + 4096 - p.fontBase.toNat) % 4096 < 80 := by omega
  simp only [Memory.background, Memory.size, hk, dite_false]

/-- Settles O14: the fields of `resetWith`, its memory as the background, and the defaults by evaluation. -/
theorem resetState : Obligations.ResetState := by
  refine ⟨fun p hp => ?_, rfl, rfl, rfl, rfl, rfl, rfl, rfl, by decide +kernel, by decide +kernel⟩
  obtain ⟨hfont, -⟩ := hp
  have hload := p.loadOrigin.isLt
  have hfits : p.fontBase.toNat + 80 ≤ 4096 := by simp only [Config.fontBytes] at hfont; omega
  refine ⟨zextAddr_toNat p.loadOrigin, rfl, rfl, rfl, rfl, rfl, fun x => ?_, fun j => ?_, fun k => ?_,
    Screen.pixel_blank, fun k => ?_, fun a ha h => ?_⟩
  · exact Vector.getElem_replicate _
  · exact Vector.getElem_replicate _
  · exact Vector.getElem_replicate _
  · rw [memRead_resetWith, Nat.mod_eq_of_lt (by omega), background_font]
  · rw [memRead_resetWith, Nat.mod_eq_of_lt ha, background_elsewhere hfits ha h]

end Sys2Proof.Machine

/-! ### Bits 15 to 12 of PC, I and the return addresses (`10_state.md`, R23 and R25)

`SameBelow12` under every update: one rule for the updates that neither read nor write these three, one rule for each
that does, and from them the rule of every action and event. -/

namespace Sys2Proof.Machine

/-! #### What two such states show alike -/

section
variable {s t : State} (h : SameBelow12 s t)
include h

/-- What an observer that reads none of PC, I and the stack shows. -/
theorem SameBelow12.observer_eq {α : Type} {f : State → α}
    (hf : ∀ (u : State) pc i stack, f { u with pc := pc, i := i, stack := stack } = f u) : f t = f s :=
  (congrArg f h.others).trans (hf s t.pc t.i t.stack)

theorem SameBelow12.params_eq : t.params = s.params := h.observer_eq (f := State.params) fun _ _ _ _ => rfl

theorem SameBelow12.sp_eq : t.sp = s.sp := h.observer_eq (f := State.sp) fun _ _ _ _ => rfl

theorem SameBelow12.getV_eq (x : Nibble) : t.getV x = s.getV x :=
  h.observer_eq (f := (State.getV · x)) fun _ _ _ _ => rfl

theorem SameBelow12.key_eq (k : Nibble) : t.key k = s.key k := h.observer_eq (f := (State.key · k)) fun _ _ _ _ => rfl

theorem SameBelow12.waiting_eq : t.waiting = s.waiting := h.observer_eq (f := State.waiting) fun _ _ _ _ => rfl

theorem SameBelow12.frame_eq : t.frame = s.frame := h.observer_eq (f := State.frame) fun _ _ _ _ => rfl

theorem SameBelow12.nextSp_eq : t.nextSp = s.nextSp := h.observer_eq (f := State.nextSp) fun _ _ _ _ => rfl

theorem SameBelow12.memRead_eq {a a' : Nat} (ha : a' % 4096 = a % 4096) : t.memRead a' = s.memRead a := by
  rw [← State.memRead_mod t a', ha, State.memRead_mod]
  exact h.observer_eq (f := (State.memRead · a)) fun _ _ _ _ => rfl

/-- A byte addressed from I (R25). -/
theorem SameBelow12.memRead_i_eq (k : Nat) : t.memRead (t.i.toNat + k) = s.memRead (s.i.toNat + k) :=
  h.memRead_eq (by rw [Nat.add_mod, h.i, ← Nat.add_mod])

/-- The fetch reduces PC, so the instruction is the same (R23). -/
theorem SameBelow12.fetchedInstr_eq : t.fetchedInstr = s.fetchedInstr := by
  have hhi : t.memRead t.pc.toNat = s.memRead s.pc.toNat := h.memRead_eq h.pc
  have hlo : t.memRead (t.pc.toNat + 1) = s.memRead (s.pc.toNat + 1) :=
    h.memRead_eq (by rw [Nat.add_mod, h.pc, ← Nat.add_mod])
  rw [State.fetchedInstr, State.fetchedInstr, State.fetchedWord, State.fetchedWord, State.fetch16, State.fetch16, hhi,
    hlo]

/-- The sprite of a draw is read from memory at I, and the display is the same. -/
theorem SameBelow12.blit_eq (x y n : Nibble) : t.blit x y n = s.blit x y n := by
  have hdisp : t.disp = s.disp := h.observer_eq (f := State.disp) fun _ _ _ _ => rfl
  simp only [State.blit, h.getV_eq, h.memRead_i_eq, hdisp]

/-- The sum of Fx1E masks I first (R191). -/
theorem SameBelow12.addIndex_eq (b : Byte) : Flags.addIndex t.i b = Flags.addIndex s.i b := by
  have hmask : t.i &&& 0x0FFF = s.i &&& 0x0FFF :=
    BitVec.eq_of_toNat_eq (by rw [Flags.mask12_toNat, Flags.mask12_toNat, h.i])
  rw [Flags.addIndex, Flags.addIndex, hmask]

/-! #### The updates that keep the relation -/

/-- An update that neither reads nor writes PC, I and the stack. -/
theorem SameBelow12.map {f : State → State}
    (hf : ∀ (u : State) pc i stack, f { u with pc := pc, i := i, stack := stack } =
      { f u with pc := pc, i := i, stack := stack }) : SameBelow12 (f s) (f t) := by
  have hs : f s = { f s with pc := s.pc, i := s.i, stack := s.stack } := hf s s.pc s.i s.stack
  have ht : f t = { f s with pc := t.pc, i := t.i, stack := t.stack } := by
    rw [← hf s t.pc t.i t.stack]
    exact congrArg f h.others
  rw [hs, ht]
  exact ⟨rfl, h.pc, h.i, h.stack⟩

theorem SameBelow12.setV (x : Nibble) {b b' : Byte} (hb : b' = b) : SameBelow12 (s.setV x b) (t.setV x b') :=
  hb ▸ h.map (f := (State.setV · x b')) fun _ _ _ _ => rfl

theorem SameBelow12.setKey (k : Nibble) (b : Bool) : SameBelow12 (s.setKey k b) (t.setKey k b) :=
  h.map (f := (State.setKey · k b)) fun _ _ _ _ => rfl

theorem SameBelow12.setDt {b b' : Byte} (hb : b' = b) : SameBelow12 (s.setDt b) (t.setDt b') :=
  hb ▸ h.map (f := (State.setDt · b')) fun _ _ _ _ => rfl

theorem SameBelow12.setSt {b b' : Byte} (hb : b' = b) : SameBelow12 (s.setSt b) (t.setSt b') :=
  hb ▸ h.map (f := (State.setSt · b')) fun _ _ _ _ => rfl

theorem SameBelow12.setWk {b b' : Byte} (hb : b' = b) : SameBelow12 (s.setWk b) (t.setWk b') :=
  hb ▸ h.map (f := (State.setWk · b')) fun _ _ _ _ => rfl

theorem SameBelow12.setDisp {d d' : DispBuf} (hd : d' = d) : SameBelow12 (s.setDisp d) (t.setDisp d') :=
  hd ▸ h.map (f := (State.setDisp · d')) fun _ _ _ _ => rfl

theorem SameBelow12.countDraw : SameBelow12 s.countDraw t.countDraw :=
  h.map (f := State.countDraw) fun _ _ _ _ => rfl

theorem SameBelow12.memWrite {a a' : Nat} (ha : a' % 4096 = a % 4096) {b b' : Byte} (hb : b' = b) :
    SameBelow12 (s.memWrite a b) (t.memWrite a' b') := by
  rw [← State.memWrite_mod t a', ha, State.memWrite_mod, hb]
  exact h.map (f := (State.memWrite · a b)) fun _ _ _ _ => rfl

theorem SameBelow12.setPc {w w' : Word} (hw : w'.toNat % 4096 = w.toNat % 4096) :
    SameBelow12 (s.setPc w) (t.setPc w') :=
  ⟨congrArg (State.setPc · w') h.others, hw, h.i, h.stack⟩

theorem SameBelow12.setI {w w' : Word} (hw : w'.toNat % 4096 = w.toNat % 4096) :
    SameBelow12 (s.setI w) (t.setI w') :=
  ⟨congrArg (State.setI · w') h.others, h.pc, hw, h.stack⟩

omit h in
theorem mod4096_add {w w' : Word} (hw : w'.toNat % 4096 = w.toNat % 4096) (c : Word) :
    (w' + c).toNat % 4096 = (w + c).toNat % 4096 := by
  rw [BitVec.toNat_add, BitVec.toNat_add]
  omega

theorem SameBelow12.advancePc : SameBelow12 s.advancePc t.advancePc := h.setPc (mod4096_add h.pc 2)

theorem SameBelow12.skipIf {c c' : Bool} (hc : c' = c) : SameBelow12 (s.skipIf c) (t.skipIf c') := by
  subst hc
  cases c'
  · exact h
  · exact h.advancePc

theorem SameBelow12.writeFlagThenResult (x : Nibble) {q q' : Flags.Result} (hq : q' = q) :
    SameBelow12 (s.writeFlagThenResult x q) (t.writeFlagThenResult x q') :=
  (h.setV vf (b := Flags.toByte q.f) (by rw [hq])).setV x (b := q.r) (by rw [hq])

/-- The link of a call is PC or a constant (R103). -/
theorem SameBelow12.linkValue : t.linkValue.toNat % 4096 = s.linkValue.toNat % 4096 := by
  rw [State.linkValue, State.linkValue, h.params_eq]
  split
  · exact h.pc
  · rfl

/-- The low bits an entry keeps of a value either lie below bit 12 or contain the bits that do. -/
theorem SameBelow12.stackEntry {w w' : Word} (hw : w'.toNat % 4096 = w.toNat % 4096) :
    (t.stackEntry w').toNat % 4096 = (s.stackEntry w).toNat % 4096 := by
  rw [State.stackEntry_toNat, State.stackEntry_toNat, h.params_eq]
  rcases Nat.le_total s.params.stackEntryWidth 12 with hle | hle
  · have hdvd : 2 ^ s.params.stackEntryWidth ∣ 4096 := pow_dvd_pow 2 hle
    rw [← Nat.mod_mod_of_dvd w'.toNat hdvd, hw, Nat.mod_mod_of_dvd w.toNat hdvd]
  · have hdvd : 4096 ∣ 2 ^ s.params.stackEntryWidth := pow_dvd_pow 2 hle
    rw [Nat.mod_mod_of_dvd _ hdvd, Nat.mod_mod_of_dvd _ hdvd, hw]

theorem SameBelow12.push {w w' : Word} (hw : w'.toNat % 4096 = w.toNat % 4096) :
    SameBelow12 (s.push w) (t.push w') := by
  refine ⟨?_, h.pc, h.i, fun j => ?_⟩
  · have hsp : (t.push w').sp = (s.push w).sp := h.nextSp_eq
    rw [show t.push w' = { t with sp := (t.push w').sp, stack := (t.push w').stack } from rfl, hsp, h.others]
    rfl
  · rw [State.stack_push, State.stack_push, h.nextSp_eq]
    split
    · exact h.stackEntry hw
    · exact h.stack j

theorem SameBelow12.popPc : SameBelow12 s.popPc t.popPc := by
  have hsp : t.prevSp = s.prevSp := h.observer_eq (f := State.prevSp) fun _ _ _ _ => rfl
  refine ⟨?_, ?_, h.i, h.stack⟩
  · rw [show t.popPc = { t with pc := t.popPc.pc, sp := t.prevSp } from rfl, hsp, h.others]
    rfl
  · simp only [State.popPc_pc, h.sp_eq]
    exact h.stack _

theorem SameBelow12.storeDigits {v v' : Byte} (hv : v' = v) : SameBelow12 (s.storeDigits v) (t.storeDigits v') := by
  subst hv
  have hi := h.i
  exact ((h.memWrite hi rfl).memWrite (by omega) rfl).memWrite (by omega) rfl

theorem SameBelow12.dumpUpTo (n : Nat) : SameBelow12 (s.dumpUpTo n) (t.dumpUpTo n) := by
  induction n with
  | zero => exact h
  | succ n ih => exact (ih.memWrite ih.i (ih.getV_eq _)).setI (mod4096_add ih.i 1)

theorem SameBelow12.loadUpTo (n : Nat) : SameBelow12 (s.loadUpTo n) (t.loadUpTo n) := by
  induction n with
  | zero => exact h
  | succ n ih => exact (ih.setV _ (ih.memRead_eq ih.i)).setI (mod4096_add ih.i 1)

omit h in
theorem SameBelow12.storeBytes {s t : State} (h : SameBelow12 s t) (a : Nat) (image : List Byte) :
    SameBelow12 (s.storeBytes a image) (t.storeBytes a image) := by
  induction image generalizing s t a with
  | nil => exact h
  | cons b rest ih => exact ih (h.memWrite rfl rfl) (a + 1)

/-! #### Every action and every event -/

/-- The rule of every action: what it writes is computed from what the two states show alike. -/
theorem SameBelow12.exec (ins : Instr) : OutcomesRelated SameBelow12 (exec ins s) (exec ins t) := by
  have hv := h.getV_eq
  cases ins with
  | cls => exact h.setDisp rfl
  | ret => exact h.popPc
  | jp nnn => exact h.setPc rfl
  | jpV0 nnn => exact h.setPc (by rw [hv])
  | call nnn => exact (h.push h.linkValue).setPc rfl
  | ldVxK x => exact h.setWk rfl
  | ldImm x kk => exact h.setV x rfl
  | ldReg x y => exact h.setV x (hv y)
  | addImm x kk => exact h.setV x (by rw [hv])
  | or x y => exact h.setV x (by rw [hv, hv])
  | and x y => exact h.setV x (by rw [hv, hv])
  | xor x y => exact h.setV x (by rw [hv, hv])
  | addReg x y => exact h.writeFlagThenResult x (by rw [hv, hv])
  | sub x y => exact h.writeFlagThenResult x (by rw [hv, hv])
  | subn x y => exact h.writeFlagThenResult x (by rw [hv, hv])
  | shr x y => exact h.writeFlagThenResult x (by rw [hv])
  | shl x y => exact h.writeFlagThenResult x (by rw [hv])
  | rnd x kk => exact (h.setV x (h.observer_eq (f := (Config.randomByte ·.draws &&& kk)) fun _ _ _ _ => rfl)).countDraw
  | drw x y n => exact (h.setDisp (by rw [h.blit_eq])).setV vf (by rw [h.blit_eq])
  | ldF x => exact h.setI (by rw [hv, h.params_eq])
  | ldVxDt x => exact h.setV x (h.observer_eq (f := State.dt) fun _ _ _ _ => rfl)
  | ldDtVx x => exact h.setDt (hv x)
  | ldStVx x => exact h.setSt (hv x)
  | ldI nnn => exact h.setI rfl
  | addI x => exact (h.setV vf (by rw [hv, h.addIndex_eq])).setI (by rw [hv, h.addIndex_eq])
  | seImm x kk => exact h.skipIf (by rw [hv])
  | sneImm x kk => exact h.skipIf (by rw [hv])
  | seReg x y => exact h.skipIf (by rw [hv, hv])
  | sneReg x y => exact h.skipIf (by rw [hv, hv])
  | skp x => exact h.skipIf (by rw [hv, h.key_eq])
  | sknp x => exact h.skipIf (by rw [hv, h.key_eq])
  | bcd x => exact h.storeDigits (hv x)
  | dump x => exact h.dumpUpTo (x.toNat + 1)
  | load x => exact h.loadUpTo (x.toNat + 1)
  | nopUnmatched w =>
    cases hpol : s.params.unlistedPolicy with
    | nop =>
      rw [exec_nopUnmatched_of_nop hpol, exec_nopUnmatched_of_nop (h.params_eq ▸ hpol)]
      exact h
    | refuse =>
      rw [exec_nopUnmatched_of_refuse hpol, exec_nopUnmatched_of_refuse (h.params_eq ▸ hpol)]
      exact rfl

theorem SameBelow12.step : OutcomesRelated SameBelow12 (step s) (step t) := by
  cases hw : s.waiting with
  | true =>
    rw [step_of_waiting hw, step_of_waiting (h.waiting_eq.trans hw)]
    exact h
  | false =>
    rw [step_of_running hw, step_of_running (h.waiting_eq.trans hw), h.fetchedInstr_eq]
    exact h.advancePc.exec _

theorem SameBelow12.keyDown (k : Nibble) : SameBelow12 (s.keyDown k) (t.keyDown k) := by
  have hset := h.setKey k true
  cases hw : s.waiting with
  | true =>
    rw [State.keyDown_of_waiting hw, State.keyDown_of_waiting (h.waiting_eq.trans hw)]
    exact hset.map (f := (State.resolveWait · k)) fun _ _ _ _ => rfl
  | false =>
    rw [State.keyDown_of_running hw, State.keyDown_of_running (h.waiting_eq.trans hw)]
    exact hset

theorem SameBelow12.deliver (e : Event) : OutcomesRelated SameBelow12 (deliver e s) (deliver e t) := by
  cases e with
  | step => exact h.step
  | load o image => exact h.storeBytes o.toNat image
  | keyDown k => exact h.keyDown k
  | keyUp k => exact h.setKey k false
  | tick n =>
    show SameBelow12 (s.tick n) (t.tick n)
    rw [State.tick_eq, State.tick_eq]
    exact h.map (f := fun u => (u.setDt (countDown u.dt n)).setSt (countDown u.st n)) fun _ _ _ _ => rfl
  | render => exact h

end

/-- Settles O19. -/
theorem highBitsOfPcAndIAreNeverObservable : Obligations.HighBitsOfPcAndIAreNeverObservable :=
  fun _ _ h => ⟨h.step, h.deliver, h.frame_eq, h.waiting_eq⟩

end Sys2Proof.Machine

/-! ### Draws and the frame (`43_display.md`, `60_exceptions.md`)

The state after a draw, pixel by pixel and in VF; which pixels a sprite covers, and what that depends on; and the index
of a pixel in the rendered frame. -/

namespace Sys2Proof.Machine

/-! #### What a draw leaves in the display and in VF -/

section
variable {s : State} {x y n : Nibble}

theorem State.pixel_drawn_of_covers {row : Screen.Row} {col : Screen.Col} (h : s.spriteCovers x y n row col) :
    (s.drawn x y n).pixel row col = !s.pixel row col :=
  (s.blit_blits x y n).covered row col h

theorem State.pixel_drawn_of_not_covers {row : Screen.Row} {col : Screen.Col} (h : ¬ s.spriteCovers x y n row col) :
    (s.drawn x y n).pixel row col = s.pixel row col :=
  (s.blit_blits x y n).uncovered row col h

/-- A collision: a covered pixel was lit. -/
theorem State.blit_hit_iff :
    (s.blit x y n).hit = true ↔ ∃ row col, s.spriteCovers x y n row col ∧ s.pixel row col = true :=
  (s.blit_blits x y n).hit.trans (or_iff_right Bool.false_ne_true)

theorem State.getV_vf_drawn : (s.drawn x y n).getV 15 = Flags.toByte (s.blit x y n).hit :=
  State.getV_setV_same _ vf _

theorem Flags.toByte_eq_one_iff (f : Bool) : Flags.toByte f = 1 ↔ f = true := by
  cases f <;> decide

theorem State.getV_vf_drawn_eq_one_iff :
    (s.drawn x y n).getV 15 = 1 ↔ ∃ row col, s.spriteCovers x y n row col ∧ s.pixel row col = true := by
  rw [State.getV_vf_drawn, Flags.toByte_eq_one_iff, State.blit_hit_iff]

theorem State.getV_vf_drawn_of_no_collision
    (h : ¬ ∃ row col, s.spriteCovers x y n row col ∧ s.pixel row col = true) : (s.drawn x y n).getV 15 = 0 := by
  rw [← State.blit_hit_iff, Bool.not_eq_true] at h
  rw [State.getV_vf_drawn, h]
  rfl

end

/-! #### Which pixels a sprite covers -/

/-- The covered pixels depend on the coordinates and the bytes of the rows drawn, and on nothing else. -/
theorem State.spriteCovers_congr {s u : State} {x y x' y' n : Nibble} (hx : u.getV x' = s.getV x)
    (hy : u.getV y' = s.getV y)
    (hrows : ∀ r, r < n.toNat → u.memRead (u.i.toNat + r) = s.memRead (s.i.toNat + r)) (row : Screen.Row)
    (col : Screen.Col) : u.spriteCovers x' y' n row col ↔ s.spriteCovers x y n row col := by
  rw [State.spriteCovers, State.spriteCovers, hx, hy]
  refine exists_congr fun r => exists_congr fun c => and_congr_right fun hr => ?_
  rw [hrows r hr]

theorem exists_bit_of_ne_zero {b : Byte} (h : b ≠ 0) : ∃ c, c < 8 ∧ b.getLsbD (7 - c) = true := by
  by_contra hnone
  push Not at hnone
  refine h (BitVec.eq_of_getLsbD_eq fun k hk => ?_)
  have hbit := hnone (7 - k) (by omega)
  rw [show 7 - (7 - k) = k by omega, ne_eq, Bool.not_eq_true] at hbit
  rw [hbit]
  simp

/-- A sprite covers a pixel exactly when a row drawn has a bit set. -/
theorem State.exists_spriteCovers_iff (s : State) (x y n : Nibble) :
    (∃ row col, s.spriteCovers x y n row col) ↔ ∃ r, r < n.toNat ∧ s.memRead (s.i.toNat + r) ≠ 0 := by
  constructor
  · rintro ⟨row, col, r, c, hr, -, hbit, -, -⟩
    refine ⟨r, hr, fun hzero => ?_⟩
    rw [hzero] at hbit
    simp at hbit
  · rintro ⟨r, hr, hne⟩
    obtain ⟨c, hc, hbit⟩ := exists_bit_of_ne_zero hne
    exact ⟨Screen.wrapRow ((s.getV y).toNat + r), Screen.wrapCol ((s.getV x).toNat + c), r, c, hr, hc, hbit, rfl, rfl⟩

/-- Settles O35, from the closed form of the blit. -/
theorem drwInvertsTheCoveredPixels : Obligations.DrwInvertsTheCoveredPixels := by
  refine fun x y n => ⟨Laws.RoundTrip.drw x y n rfl, fun s => ⟨s.drawn x y n, exec_drw x y n s, ?_, ?_, ?_, ?_⟩⟩
  · exact fun _ _ => State.pixel_drawn_of_covers
  · exact State.getV_vf_drawn_eq_one_iff.mpr
  · exact State.getV_vf_drawn_of_no_collision
  · exact s.frame_drawn x y n

/-- Settles O36: the second draw covers the pixels the first one inverted, so it inverts them back, and a covered pixel
is lit for it exactly when it was dark for the first. -/
theorem drawingTwiceRestores : Obligations.DrawingTwiceRestores := by
  refine ⟨fun x y n x' y' s t u v ht hdisp hx hy hrows hv => ?_, fun x y n s t hclear ht => ?_⟩
  · obtain rfl := Host.Outcome.next.inj ht
    obtain rfl := Host.Outcome.next.inj hv
    have hcov := State.spriteCovers_congr hx hy hrows
    have hsecond : (u.drawn x' y' n).getV 15 = 1 ↔
        ∃ row col, s.spriteCovers x y n row col ∧ s.pixel row col = false := by
      rw [State.getV_vf_drawn_eq_one_iff]
      refine exists_congr fun row => exists_congr fun col => ?_
      rw [hcov row col]
      refine and_congr_right fun h => ?_
      rw [hdisp row col]
      exact (Bool.eq_iff_iff.mp (State.pixel_drawn_of_covers h)).trans (Bool.not_eq_true' _).to_iff
    refine ⟨fun row col => ?_, hsecond, fun hclear => hsecond.trans ?_⟩
    · by_cases h : s.spriteCovers x y n row col
      · refine (State.pixel_drawn_of_covers ((hcov row col).mpr h)).trans ?_
        rw [hdisp row col]
        exact (congrArg not (State.pixel_drawn_of_covers h)).trans (Bool.not_not _)
      · refine (State.pixel_drawn_of_not_covers (mt (hcov row col).mp h)).trans ?_
        rw [hdisp row col]
        exact State.pixel_drawn_of_not_covers h
    · rw [← State.exists_spriteCovers_iff s x y n]
      simp only [hclear, and_true]
  · obtain rfl := Host.Outcome.next.inj ht
    refine State.getV_vf_drawn_of_no_collision ?_
    rintro ⟨row, col, -, hlit⟩
    exact absurd ((hclear row col).symm.trans hlit) (by decide)

/-- The reset state with every pixel lit, on which the glyph 0 is drawn twice. -/
def allLit : State := State.reset.setDisp (Vector.replicate 256 0xFF)

theorem allLit_pixel (row : Screen.Row) (col : Screen.Col) : allLit.pixel row col = true := by
  have hbit : ∀ k < 8, (0xFF : Byte).getLsbD k = true := by decide
  have hbyte : allLit.disp[Screen.byteIx row col] = 0xFF := Vector.getElem_replicate _
  exact (congrArg (·.getLsbD (Screen.bitIx col)) hbyte).trans (hbit _ (Screen.bitIx_lt col))

/-- Refutes O37: on the all-lit display the second draw of glyph 0 finds no pixel that was dark before the first, so it
reports 0, and yet the first row of the glyph is 0xF0. -/
theorem not_secondDrawAlwaysReportsSetBits : ¬ Obligations.SecondDrawAlwaysReportsSetBits := by
  intro h
  have hrow : ∃ r, r < (5 : Nibble).toNat ∧ allLit.memRead (allLit.i.toNat + r) ≠ 0 := ⟨0, by decide, by decide +kernel⟩
  have hone := (h 0 1 5 allLit _ _ (by decide) (by decide) (exec_drw 0 1 5 allLit) (exec_drw 0 1 5 _)).mpr hrow
  obtain ⟨-, hdark, -⟩ := drawingTwiceRestores.1 0 1 5 0 1 allLit _ _ _ (exec_drw 0 1 5 allLit) (fun _ _ => rfl) rfl rfl
    (fun _ _ => rfl) (exec_drw 0 1 5 _)
  obtain ⟨row, col, -, hpixel⟩ := hdark.mp hone
  exact absurd ((allLit_pixel row col).symm.trans hpixel) (by decide)

/-! #### The rendered frame -/

/-- An index into rows of one length, put in a row. -/
theorem getElem?_flatMap_of_length {α β : Type} {f : α → List β} {n : Nat} (l : List α)
    (hlen : ∀ a, (f a).length = n) (k j : Nat) (hj : j < n) :
    (l.flatMap f)[k * n + j]? = l[k]?.bind fun a => (f a)[j]? := by
  induction l generalizing k with
  | nil => rfl
  | cons a rest ih =>
    rw [List.flatMap_cons]
    cases k with
    | zero => rw [Nat.zero_mul, Nat.zero_add, List.getElem?_append_left (by rw [hlen]; exact hj)]; rfl
    | succ k =>
      have hge : (k + 1) * n + j = n + (k * n + j) := by rw [Nat.succ_mul]; omega
      rw [List.getElem?_append_right (by rw [hlen, hge]; omega), hlen, hge, Nat.add_sub_cancel_left, ih]
      rfl

theorem State.frame_length (s : State) : s.frame.length = 2048 := by
  simp [State.frame]

theorem State.frame_getElem? (s : State) (row : Screen.Row) (col : Screen.Col) :
    s.frame[row.val * 64 + col.val]? = some (colour (s.pixel row col)) := by
  rw [State.frame, getElem?_flatMap_of_length _ (fun _ => by simp) row.val col.val col.isLt]
  simp

/-- Settles O47: the frame is the rows one after another, and a pixel is by definition its bit of the packed bytes. -/
theorem renderIsRowMajor : Obligations.RenderIsRowMajor := fun s =>
  ⟨rfl, s.frame_length, fun row col => ⟨s.frame_getElem? row col, s.frame_getElem? row col⟩⟩

end Sys2Proof.Machine

/-! ### Calls, keys, draws of random bytes and round trips, instruction by instruction -/

namespace Sys2Proof.Machine

/-! #### Calls and returns (`41_control_flow.md`) -/

theorem stackSlot_eq_iff (a b : Nat) : stackSlot a = stackSlot b ↔ a % 12 = b % 12 := Fin.ext_iff

/-- The new top of the ring holds what an entry keeps of the value pushed (R103). -/
theorem State.stack_push_top (s : State) (w : Word) : (s.push w).stack[stackSlot s.nextSp] = s.stackEntry w :=
  (s.stack_push w _).trans (if_pos rfl)

theorem State.linkValue_of_returnAddress {s : State} (h : s.params.callLinkMode = .returnAddress) :
    s.linkValue = s.pc := by
  rw [State.linkValue, h]

theorem State.linkValue_of_capacityConstant {s : State} (h : s.params.callLinkMode = .capacityConstant) :
    s.linkValue = 0x000C := by
  rw [State.linkValue, h]

/-- The state that 2nnn answers (R103). -/
def State.called (s : State) (nnn : Addr) : State := (s.push s.linkValue).setPc (zextAddr nnn)

theorem exec_call (nnn : Addr) (s : State) : exec (.call nnn) s = .next (s.called nnn) := rfl

theorem exec_ret (s : State) : exec .ret s = .next s.popPc := rfl

/-- The top of the ring after a call, as the statements index it. -/
theorem State.stack_called_top (s : State) (nnn : Addr) :
    (s.called nnn).stack[(s.called nnn).sp % 12]'(Nat.mod_lt _ (by decide)) = s.stackEntry s.linkValue :=
  s.stack_push_top s.linkValue

theorem State.frame_called (s : State) (nnn : Addr) :
    Frame s (s.called nnn) (fun q => q = .pc ∨ q = .sp ∨ q = .stack (stackSlot s.nextSp)) :=
  frame_exec (exec_call nnn s)

/-- Settles O23: the entry keeps the low bits of the link, which is PC or the constant by CALL_LINK_MODE. -/
theorem callPushesTheLink : Obligations.CallPushesTheLink := by
  refine fun nnn => ⟨Laws.RoundTrip.call nnn rfl, fun s => ⟨s.called nnn, exec_call nnn s, fun hmax => ?_, rfl,
    zextAddr_toNat nnn, fun hmode => ?_, fun hmode => ?_, s.frame_called nnn⟩⟩
  · exact congrArg (fun m => (s.sp + 1) % (m + 1)) hmax
  · rw [State.stack_called_top, State.linkValue_of_returnAddress hmode]
    exact ⟨s.stackEntry_toNat s.pc, s.stackEntry_eq s.pc⟩
  · rw [State.stack_called_top, State.linkValue_of_capacityConstant hmode]
    exact ⟨s.stackEntry_toNat 0x000C, s.stackEntry_eq 0x000C⟩

/-- Settles O55: a pop undoes the count of the push before it. -/
theorem retCountsInTheSpRange : Obligations.RetCountsInTheSpRange := by
  refine fun s => ⟨⟨s.popPc, exec_ret s, rfl, rfl⟩, fun nnn t hsp ht => ?_⟩
  obtain rfl := Host.Outcome.next.inj ht
  exact ⟨(s.called nnn).popPc, exec_ret _, s.prevSp_push s.linkValue hsp, rfl⟩

/-! #### Nested calls

The ring as the link addresses in it: where the calls put them, and in which order the returns take them. -/

/-- The parameters under which R104 holds: return addresses are pushed, whole, on the ring of R27. -/
structure WholeLinks (p : Config.Params) : Prop where
  mode  : p.callLinkMode = .returnAddress
  range : p.spMax = 11
  width : 16 ≤ p.stackEntryWidth

theorem nestedCalls_cons (ra : Word) (nnn : Addr) (rest : List (Word × Addr)) (s : State) :
    nestedCalls ((ra, nnn) :: rest) s = nestedCalls rest ((s.setPc ra).called nnn) := rfl

theorem State.sp_called {s : State} (h : WholeLinks s.params) (nnn : Addr) : (s.called nnn).sp = (s.sp + 1) % 12 :=
  congrArg (fun m => (s.sp + 1) % (m + 1)) h.range

/-- A call from the return address puts that address in the next entry of the ring. -/
theorem State.stack_called {s : State} (h : WholeLinks s.params) (ra : Word) (nnn : Addr) (j : Fin 12) :
    ((s.setPc ra).called nnn).stack[j] = if j = stackSlot (s.sp + 1) then ra else s.stack[j] := by
  have hslot : stackSlot (s.setPc ra).nextSp = stackSlot (s.sp + 1) :=
    (stackSlot_eq_iff _ _).mpr (by rw [State.nextSp, State.setPc_params, State.setPc_sp, h.range, Nat.mod_mod])
  have hlink : (s.setPc ra).stackEntry (s.setPc ra).linkValue = ra := by
    rw [State.linkValue_of_returnAddress (s := s.setPc ra) h.mode]
    exact State.stackEntry_eq (s.setPc ra) ra h.width
  rw [State.called, State.setPc_stack, State.stack_push, hslot, hlink, State.setPc_stack]

/-- After nested calls SP has gone round the ring by their number, the last 12 return addresses stand in their entries,
and the entries the calls did not reach are as before. -/
theorem nestedCalls_spec {s : State} (h : WholeLinks s.params) (hsp : s.sp ≤ 11) (calls : List (Word × Addr)) :
    ∃ t, nestedCalls calls s = some t ∧ t.params = s.params ∧ t.sp = (s.sp + calls.length) % 12 ∧
      (∀ j, (∀ k, k < calls.length → j ≠ stackSlot (s.sp + 1 + k)) → t.stack[j] = s.stack[j]) ∧
      ∀ k (hk : k < calls.length), calls.length ≤ k + 12 → t.stack[stackSlot (s.sp + 1 + k)] = calls[k].1 := by
  induction calls generalizing s with
  | nil => exact ⟨s, rfl, rfl, (Nat.mod_eq_of_lt (by omega)).symm, fun _ _ => rfl, fun k hk => absurd hk (by simp)⟩
  | cons c rest ih =>
    obtain ⟨ra, nnn⟩ := c
    have hsp' : ((s.setPc ra).called nnn).sp = (s.sp + 1) % 12 := State.sp_called (s := s.setPc ra) h nnn
    have hstack := State.stack_called h ra nnn
    have hslot : ∀ k, stackSlot (((s.setPc ra).called nnn).sp + 1 + k) = stackSlot (s.sp + 1 + (k + 1)) := fun k =>
      (stackSlot_eq_iff _ _).mpr (by rw [hsp']; omega)
    obtain ⟨t, hcalls, hparams, htsp, hother, hlinks⟩ := ih (s := (s.setPc ra).called nnn) h (by rw [hsp']; omega)
    refine ⟨t, (nestedCalls_cons ra nnn rest s).trans hcalls, hparams, ?_, fun j hj => ?_, fun k hk hlast => ?_⟩
    · rw [htsp, hsp', List.length_cons]
      omega
    · rw [hother j fun k hk => ?_, hstack, if_neg (hj 0 (by simp))]
      rw [hslot]
      exact hj (k + 1) (by simpa using hk)
    · rw [List.length_cons] at hlast
      cases k with
      | zero =>
        show t.stack[stackSlot (s.sp + 1)] = ra
        rw [hother _ fun k hk => ?_, hstack, if_pos rfl]
        · rw [hslot, ne_eq, stackSlot_eq_iff]
          omega
      | succ k =>
        have hlink := hlinks k (by simpa using hk) (by omega)
        simp only [hslot] at hlink
        exact hlink

theorem returns_succ (n : Nat) (s : State) :
    returns (n + 1) s = (returns n s.popPc).map fun q => (s.popPc.pc :: q.1, q.2) := rfl

/-- Returns take the entries of the ring downward from SP. -/
theorem returns_spec {s : State} (hmax : s.params.spMax = 11) (hsp : s.sp ≤ 11) (n : Nat) :
    ∃ u, returns n s = some ((List.range n).map (fun k => s.stack[stackSlot (s.sp + 11 * k)]), u) ∧
      u.sp = (s.sp + 11 * n) % 12 := by
  induction n generalizing s with
  | zero => exact ⟨s, rfl, (Nat.mod_eq_of_lt (by omega)).symm⟩
  | succ n ih =>
    have hsp' : s.popPc.sp = (s.sp + 11) % 12 := s.prevSp_of_spMax hmax
    obtain ⟨u, hreturns, husp⟩ := ih (s := s.popPc) hmax (by rw [hsp']; omega)
    have hslot : ∀ k, stackSlot (s.popPc.sp + 11 * k) = stackSlot (s.sp + 11 * (k + 1)) := fun k =>
      (stackSlot_eq_iff _ _).mpr (by rw [hsp']; omega)
    refine ⟨u, ?_, by rw [husp, hsp']; omega⟩
    rw [returns_succ, hreturns, Option.map_some, List.range_succ_eq_map, List.map_cons, List.map_map]
    simp only [hslot]
    rfl

/-- The values that up to 12 returns give PC after nested calls: the return addresses, innermost first. -/
theorem popped_links {t : State} {sp : Nat} {calls : List (Word × Addr)} (hsp : t.sp = (sp + calls.length) % 12)
    (hlinks : ∀ k (hk : k < calls.length), calls.length ≤ k + 12 → t.stack[stackSlot (sp + 1 + k)] = calls[k].1)
    {n : Nat} (hn : n ≤ calls.length) (hn12 : n ≤ 12) :
    (List.range n).map (fun k => t.stack[stackSlot (t.sp + 11 * k)]) = (calls.map Prod.fst).reverse.take n := by
  refine List.ext_getElem (by simp [hn]) fun k hk _ => ?_
  have hkn : k < n := by simpa using hk
  have hslot : stackSlot (t.sp + 11 * k) = stackSlot (sp + 1 + (calls.length - 1 - k)) :=
    (stackSlot_eq_iff _ _).mpr (by rw [hsp]; omega)
  have hlink := hlinks (calls.length - 1 - k) (by omega) (by omega)
  simpa [hslot] using hlink

/-- Settles O24: the first 12 returns find the last 12 links, and a 13th the entry that the 13th call wrote. -/
theorem nestedCallsReturn : Obligations.NestedCallsReturn := by
  intro s calls hmode hmax hwidth hsp
  obtain ⟨t, hcalls, hparams, htsp, -, hlinks⟩ := nestedCalls_spec ⟨hmode, hmax, hwidth⟩ hsp calls
  have hreturns := returns_spec (s := t) (hparams ▸ hmax) (by rw [htsp]; omega)
  refine ⟨fun hlen => ?_, fun hlen => ?_⟩
  · obtain ⟨u, hret, husp⟩ := hreturns calls.length
    refine ⟨t, u, hcalls, ?_, by rw [husp, htsp]; omega⟩
    rw [hret, popped_links htsp hlinks le_rfl hlen, List.take_of_length_le (by simp)]
  · obtain ⟨u, hret, -⟩ := hreturns 13
    refine ⟨t, u, hcalls, ?_⟩
    have hslot : stackSlot (t.sp + 11 * 12) = stackSlot (s.sp + 1 + 12) :=
      (stackSlot_eq_iff _ _).mpr (by rw [htsp]; omega)
    have hthirteenth : t.stack[stackSlot (t.sp + 11 * 12)] = calls[12].1 :=
      (congrArg (fun j : Fin 12 => t.stack[j]) hslot).trans (hlinks 12 (by omega) (by omega))
    have hlast : (calls.map Prod.fst).drop 12 = [t.stack[stackSlot (t.sp + 11 * 12)]] := by
      rw [List.drop_eq_getElem_cons (by simp [hlen]), List.drop_of_length_le (by simp [hlen]), hthirteenth,
        List.getElem_map]
    rw [hret, List.range_succ, List.map_append, popped_links htsp hlinks (by omega) le_rfl, hlast]
    rfl

/-! #### Random bytes (`42_alu.md`) -/

/-- Settles O33: Vx is written with the masked byte, then the byte is counted. -/
theorem randomIsMasked : Obligations.RandomIsMasked := by
  refine fun x kk => ⟨Laws.RoundTrip.rnd x kk rfl, fun s => ⟨_, rfl, ?_, rfl, fun k hk => ?_,
    frame_exec (ins := .rnd x kk) rfl⟩⟩
  · exact s.getV_setV_same x _
  · rw [State.countDraw_getV, State.applyDraw, State.getV_setV_same, BitVec.getLsbD_and, hk, Bool.and_false]

/-! #### The wait for a key (`44_timers_keypad.md`, `60_exceptions.md`) -/

/-- WK as Fx0A leaves it (R175). -/
theorem waitFlag_toNat (x : Nibble) : (0x80 ||| zextNibble x).toNat = 128 + x.toNat := by
  revert x; decide

/-- Settles O41: a flag of 128 or more is the wait, and a waiting step answers its own state. -/
theorem ldVxKEntersTheWait : Obligations.LdVxKEntersTheWait := by
  refine fun x => ⟨Laws.RoundTrip.ldVxK x rfl, fun s => ⟨s.setWk (0x80 ||| zextNibble x), rfl, waitFlag_toNat x,
    step_of_waiting ?_, frame_setWk s _⟩⟩
  rw [State.waiting_iff, State.setWk_wk, waitFlag_toNat]
  exact Nat.le_add_right 128 x.toNat

theorem zextNibble_toNat (k : Nibble) : (zextNibble k).toNat = k.toNat :=
  BitVec.toNat_setWidth_of_le (by decide)

theorem State.waitDest_toNat (s : State) : s.waitDest.toNat = s.wk.toNat % 16 := by
  rw [State.waitDest, BitVec.extractLsb'_toNat, Nat.shiftRight_zero]

/-- The low 7 bits of WK stay (R176). -/
theorem State.clearWait_wk_toNat (s : State) : s.clearWait.wk.toNat = s.wk.toNat % 128 :=
  (BitVec.toNat_and s.wk 0x7F).trans (Nat.and_two_pow_sub_one_eq_mod s.wk.toNat 7)

theorem frame_resolveWait (s : State) (k : Nibble) :
    Frame s (s.resolveWait k) (fun q => q = .v s.waitDest ∨ q = .wk) :=
  ((frame_setV s s.waitDest _).mono fun _ h => .inl h).trans ((frame_setWk _ _).mono fun _ h => .inr h)

theorem State.getV_resolveWait (s : State) (k : Nibble) : (s.resolveWait k).getV s.waitDest = zextNibble k :=
  s.getV_setV_same s.waitDest _

theorem State.key_keyDown (s : State) (k : Nibble) : (s.keyDown k).key k = true := by
  have hset : (s.setKey k true).key k = true := (s.key_setKey k k true).trans (if_pos rfl)
  cases hw : s.waiting with
  | true => rw [State.keyDown_of_waiting hw]; exact hset
  | false => rw [State.keyDown_of_running hw]; exact hset

/-- Settles O43: a running core takes the key's bit only; a waiting one also resolves its wait. -/
theorem keyDownSetsTheKeyAndEndsTheWait : Obligations.KeyDownSetsTheKeyAndEndsTheWait := by
  refine fun s k => ⟨s.keyDown k, rfl, s.key_keyDown k, fun hwk => ?_, fun d hwk => ?_⟩
  · rw [State.keyDown_of_running (s.not_waiting_iff.mpr hwk)]
    exact frame_setKey s k true
  · have hd := d.isLt
    have hdest : (s.setKey k true).waitDest = d :=
      BitVec.eq_of_toNat_eq ((s.setKey k true).waitDest_toNat.trans (by rw [State.setKey_wk, hwk]; omega))
    rw [State.keyDown_of_waiting (s.waiting_iff.mpr (by omega))]
    refine ⟨?_, ?_, ?_⟩
    · rw [← hdest, State.getV_resolveWait, zextNibble_toNat]
    · refine (State.clearWait_wk_toNat _).trans ?_
      rw [State.setV_wk, State.setKey_wk, hwk]
      omega
    · rw [← hdest]
      exact ((frame_setKey s k true).mono fun _ h => .inl h).trans
        ((frame_resolveWait _ k).mono fun _ h => .inr h)

/-! #### A dump, then a load (`45_index_memory.md`) -/

/-- Settles O53: the load reads back at each address what the dump stored there, and I does not wrap mod 2^16. -/
theorem dumpThenLoadRoundTrips : Obligations.DumpThenLoadRoundTrips := by
  intro x s t u hi ht hui hkept
  have hx := x.isLt
  obtain ⟨t', ht', hstored, hti, -⟩ := (dumpStoresV0ToVx x).2 s
  obtain rfl := Host.Outcome.next.inj (ht'.symm.trans ht)
  obtain ⟨v, hv, hloaded, hvi, -⟩ := (loadFillsV0ToVx x).2 u
  rw [hui] at hloaded hvi
  have hsum : (s.i.toNat + x.toNat + 1) % 65536 = s.i.toNat + x.toNat + 1 := Nat.mod_eq_of_lt (by omega)
  refine ⟨v, hv, fun k hk => ?_, hti.trans hsum, hvi.trans hsum⟩
  rw [hloaded k hk, hkept k.toNat (BitVec.le_def.mp hk), hstored k hk]

end Sys2Proof.Machine

/-! ### What each action depends on (`10_state.md`, the read entries of R38)

When two states agree on the parts that an action reads, the values it computes are the same, and so are the parts it
writes with them: one rule per update, then one per action. -/

namespace Sys2Proof.Machine

/-- The two states have the same value in every part named. -/
def AgreeOn (named : Part → Prop) (s t : State) : Prop := ∀ q, named q → s.observe q = t.observe q

/-! #### Values from parts -/

theorem getV_eq_of_observe {s t : State} {x : Nibble} (h : s.observe (.v x) = t.observe (.v x)) :
    s.getV x = t.getV x :=
  BitVec.eq_of_toNat_eq h

theorem key_eq_of_observe {s t : State} {k : Nibble} (h : s.observe (.key k) = t.observe (.key k)) :
    s.key k = t.key k :=
  Function.LeftInverse.injective Bool.ofNat_toNat h

theorem pixel_eq_of_observe {s t : State} {row : Screen.Row} {col : Screen.Col}
    (h : s.observe (.pixel row col) = t.observe (.pixel row col)) : s.pixel row col = t.pixel row col :=
  Function.LeftInverse.injective Bool.ofNat_toNat h

/-- A byte at an address not yet reduced, as a part. -/
theorem observe_mem (s : State) (a : Nat) : s.observe (.mem (BitVec.ofNat 12 a)) = (s.memRead a).toNat := by
  rw [State.observe, BitVec.toNat_ofNat]
  exact congrArg BitVec.toNat (s.memRead_mod a)

theorem memRead_eq_of_observe {s t : State} {k : Nat} (h : s.observe (s.cell k) = t.observe (s.cell k)) :
    s.memRead (s.i.toNat + k) = t.memRead (s.i.toNat + k) := by
  rw [State.cell, observe_mem, observe_mem] at h
  exact BitVec.eq_of_toNat_eq h

theorem cell_congr {s t : State} (hi : s.i = t.i) (k : Nat) : s.cell k = t.cell k := by
  rw [State.cell, State.cell, hi]

/-! #### Updates with the same values -/

section
variable {s t : State}

theorem agreeOn_setV (x : Nibble) {b b' : Byte} (hb : b = b') : AgreeOn (· = .v x) (s.setV x b) (t.setV x b') := by
  rintro q rfl
  rw [State.observe, State.observe, State.getV_setV_same, State.getV_setV_same, hb]

theorem agreeOn_setPc {w w' : Word} (hw : w = w') : AgreeOn (· = .pc) (s.setPc w) (t.setPc w') := by
  rintro q rfl
  exact congrArg BitVec.toNat hw

theorem agreeOn_setI {w w' : Word} (hw : w = w') : AgreeOn (· = .i) (s.setI w) (t.setI w') := by
  rintro q rfl
  exact congrArg BitVec.toNat hw

theorem agreeOn_setDt {b b' : Byte} (hb : b = b') : AgreeOn (· = .dt) (s.setDt b) (t.setDt b') := by
  rintro q rfl
  exact congrArg BitVec.toNat hb

theorem agreeOn_setSt {b b' : Byte} (hb : b = b') : AgreeOn (· = .st) (s.setSt b) (t.setSt b') := by
  rintro q rfl
  exact congrArg BitVec.toNat hb

theorem agreeOn_setWk {b b' : Byte} (hb : b = b') : AgreeOn (· = .wk) (s.setWk b) (t.setWk b') := by
  rintro q rfl
  exact congrArg BitVec.toNat hb

theorem agreeOn_skipIf {c c' : Bool} (hpc : s.pc = t.pc) (hc : c = c') :
    AgreeOn (· = .pc) (s.skipIf c) (t.skipIf c') := by
  rintro q rfl
  rw [State.observe, State.observe, State.skipIf_pc, State.skipIf_pc, hpc, hc]

/-- The flag is lost in both states when x is 15 (R121). -/
theorem agreeOn_writeFlagThenResult (x : Nibble) {r r' : Flags.Result} (hr : r = r') :
    AgreeOn (fun q => q = .v x ∨ q = .v vf) (s.writeFlagThenResult x r) (t.writeFlagThenResult x r') := by
  subst hr
  rintro q (rfl | rfl)
  · exact agreeOn_setV x rfl _ rfl
  · by_cases hx : x = 15
    · exact agreeOn_setV x rfl _ (congrArg Part.v hx.symm)
    · exact congrArg BitVec.toNat (((s.getV_writeFlagThenResult x r).2 hx).trans
        ((t.getV_writeFlagThenResult x r).2 hx).symm)

theorem agreeOn_storeDigits {v v' : Byte} (hi : s.i = t.i) (hv : v = v') :
    AgreeOn (fun q => ∃ k, k < 3 ∧ q = s.cell k) (s.storeDigits v) (t.storeDigits v') := by
  subst hv
  obtain ⟨hs0, hs1, hs2⟩ := s.memRead_storeDigits v
  obtain ⟨ht0, ht1, ht2⟩ := t.memRead_storeDigits v
  rintro q ⟨k, hk, rfl⟩
  rw [State.cell, observe_mem, observe_mem]
  rw [← hi] at ht0 ht1 ht2
  interval_cases k
  · exact congrArg BitVec.toNat (hs0.trans ht0.symm)
  · exact congrArg BitVec.toNat (hs1.trans ht1.symm)
  · exact congrArg BitVec.toNat (hs2.trans ht2.symm)

theorem agreeOn_dumpUpTo {n : Nat} (hn : n ≤ 16) (hi : s.i = t.i)
    (hv : ∀ r : Nibble, r.toNat < n → s.getV r = t.getV r) :
    AgreeOn (fun q => q = .i ∨ ∃ k, k < n ∧ q = s.cell k) (s.dumpUpTo n) (t.dumpUpTo n) := by
  obtain ⟨hsrec, hsread, -⟩ := dumpUpTo_spec s n hn
  obtain ⟨htrec, htread, -⟩ := dumpUpTo_spec t n hn
  rintro q (rfl | ⟨k, hk, rfl⟩)
  · rw [State.observe, State.observe, hsrec, htrec, hi]
  · have hreg : (BitVec.ofNat 4 k).toNat < n := by rw [BitVec.toNat_ofNat]; omega
    rw [State.cell, observe_mem, observe_mem, hsread k hk, hv _ hreg, hi, htread k hk]

theorem agreeOn_loadUpTo {n : Nat} (hn : n ≤ 16) (hi : s.i = t.i)
    (hmem : ∀ k, k < n → s.memRead (s.i.toNat + k) = t.memRead (s.i.toNat + k)) :
    AgreeOn (fun q => q = .i ∨ ∃ r : Nibble, r.toNat < n ∧ q = .v r) (s.loadUpTo n) (t.loadUpTo n) := by
  obtain ⟨hsrec, hsget⟩ := loadUpTo_spec s n hn
  obtain ⟨htrec, htget⟩ := loadUpTo_spec t n hn
  rintro q (rfl | ⟨r, hr, rfl⟩)
  · rw [State.observe, State.observe, hsrec, htrec, hi]
  · rw [State.observe, State.observe, hsget, htget, if_pos hr, if_pos hr, hmem _ hr, hi]

end

/-! #### A draw -/

theorem target_congr {s t : State} {x y : Nibble} (hx : s.getV x = t.getV x) (hy : s.getV y = t.getV y) (r c : Nat) :
    s.target x y r c = t.target x y r c := by
  rw [State.target, State.target, hx, hy]

/-- The pixels a sprite falls on come out alike, covered or not, and so does the collision. -/
theorem agreeOn_drawn {s t : State} {x y n : Nibble} (hx : s.getV x = t.getV x) (hy : s.getV y = t.getV y)
    (hrows : ∀ r, r < n.toNat → t.memRead (t.i.toNat + r) = s.memRead (s.i.toNat + r))
    (hpixels : AgreeOn (fun q => ∃ r c, r < n.toNat ∧ c < 8 ∧ q = s.target x y r c) s t) :
    AgreeOn (fun q => q = .v vf ∨ ∃ r c, r < n.toNat ∧ c < 8 ∧ q = s.target x y r c)
      (s.drawn x y n) (t.drawn x y n) := by
  have hcov := State.spriteCovers_congr hx.symm hy.symm hrows
  rintro q (rfl | ⟨r, c, hr, hc, rfl⟩)
  · have hhit : (s.blit x y n).hit = (t.blit x y n).hit := by
      rw [Bool.eq_iff_iff, State.blit_hit_iff, State.blit_hit_iff]
      refine exists_congr fun row => exists_congr fun col => ?_
      rw [hcov row col]
      refine and_congr_right fun h => ?_
      rw [pixel_eq_of_observe (hpixels _ (State.target_of_spriteCovers h))]
    exact congrArg BitVec.toNat (State.getV_vf_drawn.trans ((congrArg Flags.toByte hhit).trans
      State.getV_vf_drawn.symm))
  · have hpixel := pixel_eq_of_observe (hpixels _ ⟨r, c, hr, hc, rfl⟩)
    refine congrArg Bool.toNat ?_
    by_cases h : s.spriteCovers x y n (Screen.wrapRow ((s.getV y).toNat + r)) (Screen.wrapCol ((s.getV x).toNat + c))
    · rw [State.pixel_drawn_of_covers h, State.pixel_drawn_of_covers ((hcov _ _).mpr h), hpixel]
    · rw [State.pixel_drawn_of_not_covers h, State.pixel_drawn_of_not_covers (mt (hcov _ _).mp h), hpixel]

/-! #### Every action -/

/-- The one register that an action reads beside PC. -/
theorem AgreeOn.getV_eq {s t : State} {x : Nibble} (h : AgreeOn (fun q => q = .pc ∨ q = .v x) s t) :
    s.getV x = t.getV x :=
  getV_eq_of_observe (h _ (.inr rfl))

/-- The two registers that an action reads beside PC. -/
theorem AgreeOn.getV_pair_eq {s t : State} {x y : Nibble}
    (h : AgreeOn (fun q => q = .pc ∨ q = .v x ∨ q = .v y) s t) : s.getV x = t.getV x ∧ s.getV y = t.getV y :=
  ⟨getV_eq_of_observe (h _ (.inr (.inl rfl))), getV_eq_of_observe (h _ (.inr (.inr rfl)))⟩

/-- The parts an action writes are named by parts it reads. -/
theorem writes_congr {ins : Instr} {s t : State} (hp : s.params = t.params) (h : AgreeOn (reads ins s) s t)
    (q : Part) : writes ins s q ↔ writes ins t q := by
  cases ins with
  | call nnn =>
    have hsp : s.sp = t.sp := h .sp (.inr rfl)
    rw [writes, writes, State.nextSp, State.nextSp, hsp, hp]
  | drw x y n =>
    have hx := getV_eq_of_observe (h (.v x) (.inr (.inl rfl)))
    have hy := getV_eq_of_observe (h (.v y) (.inr (.inr (.inl rfl))))
    simp only [writes, target_congr hx hy]
  | bcd x =>
    have hi : s.i = t.i := BitVec.eq_of_toNat_eq (h .i (.inr (.inr rfl)))
    simp only [writes, cell_congr hi]
  | dump x =>
    have hi : s.i = t.i := BitVec.eq_of_toNat_eq (h .i (.inr (.inl rfl)))
    simp only [writes, cell_congr hi]
  | _ => exact Iff.rfl

/-- The values an action writes are computed from the parts it reads. -/
theorem exec_congr {ins : Instr} {s t : State} (hp : s.params = t.params) (h : AgreeOn (reads ins s) s t) :
    OutcomesRelated (AgreeOn (writes ins s)) (exec ins s) (exec ins t) := by
  have hpc : s.pc = t.pc := BitVec.eq_of_toNat_eq (h .pc (.inl rfl))
  cases ins with
  | cls => rintro q ⟨row, col, rfl⟩; rfl
  | ret =>
    have hsp : s.sp = t.sp := h .sp (.inr (.inl rfl))
    rintro q (rfl | rfl)
    · refine (h (.stack (stackSlot s.sp)) (.inr (.inr rfl))).trans ?_
      simp only [State.observe, State.popPc_pc, hsp]
    · simp only [State.observe, State.popPc_sp, State.prevSp, hsp, hp]
  | jp nnn => exact agreeOn_setPc rfl
  | jpV0 nnn => exact agreeOn_setPc (by rw [AgreeOn.getV_eq (x := 0) h])
  | call nnn =>
    have hsp : s.sp = t.sp := h .sp (.inr rfl)
    have hnext : s.nextSp = t.nextSp := by rw [State.nextSp, State.nextSp, hsp, hp]
    have hentry : s.stackEntry s.linkValue = t.stackEntry t.linkValue := by
      simp only [State.stackEntry, State.linkValue, hp, hpc]
    rintro q (rfl | rfl | rfl)
    · rfl
    · exact hnext
    · refine congrArg BitVec.toNat ((s.stack_push_top s.linkValue).trans (hentry.trans ?_))
      rw [hnext]
      exact (t.stack_push_top t.linkValue).symm
  | ldVxK x => exact agreeOn_setWk rfl
  | ldImm x kk => exact agreeOn_setV x rfl
  | ldReg x y => exact agreeOn_setV x (AgreeOn.getV_eq (x := y) h)
  | addImm x kk => exact agreeOn_setV x (by rw [AgreeOn.getV_eq (x := x) h])
  | or x y =>
    obtain ⟨hx, hy⟩ := AgreeOn.getV_pair_eq (x := x) (y := y) h
    exact agreeOn_setV x (by rw [hx, hy])
  | and x y =>
    obtain ⟨hx, hy⟩ := AgreeOn.getV_pair_eq (x := x) (y := y) h
    exact agreeOn_setV x (by rw [hx, hy])
  | xor x y =>
    obtain ⟨hx, hy⟩ := AgreeOn.getV_pair_eq (x := x) (y := y) h
    exact agreeOn_setV x (by rw [hx, hy])
  | addReg x y =>
    obtain ⟨hx, hy⟩ := AgreeOn.getV_pair_eq (x := x) (y := y) h
    exact agreeOn_writeFlagThenResult x (by rw [hx, hy])
  | sub x y =>
    obtain ⟨hx, hy⟩ := AgreeOn.getV_pair_eq (x := x) (y := y) h
    exact agreeOn_writeFlagThenResult x (by rw [hx, hy])
  | subn x y =>
    obtain ⟨hx, hy⟩ := AgreeOn.getV_pair_eq (x := x) (y := y) h
    exact agreeOn_writeFlagThenResult x (by rw [hx, hy])
  | shr x y => exact agreeOn_writeFlagThenResult x (by rw [AgreeOn.getV_eq (x := y) h])
  | shl x y => exact agreeOn_writeFlagThenResult x (by rw [AgreeOn.getV_eq (x := y) h])
  | rnd x kk =>
    have hdraws : s.draws = t.draws := h .draws (.inr rfl)
    rintro q (rfl | rfl)
    · exact agreeOn_setV (s := s) (t := t) x (by rw [hdraws]) _ rfl
    · exact congrArg (· + 1) hdraws
  | drw x y n =>
    have hi : s.i = t.i := BitVec.eq_of_toNat_eq (h .i (.inr (.inr (.inr (.inl rfl)))))
    refine agreeOn_drawn (getV_eq_of_observe (h (.v x) (.inr (.inl rfl))))
      (getV_eq_of_observe (h (.v y) (.inr (.inr (.inl rfl))))) (fun r hr => ?_) fun q hq => ?_
    · rw [← hi]
      exact (memRead_eq_of_observe (h (s.cell r) (.inr (.inr (.inr (.inr (.inl ⟨r, hr, rfl⟩))))))).symm
    · exact h q (.inr (.inr (.inr (.inr (.inr hq)))))
  | ldF x => exact agreeOn_setI (by rw [AgreeOn.getV_eq (x := x) h, hp])
  | ldVxDt x => exact agreeOn_setV x (BitVec.eq_of_toNat_eq (h .dt (.inr rfl)))
  | ldDtVx x => exact agreeOn_setDt (AgreeOn.getV_eq (x := x) h)
  | ldStVx x => exact agreeOn_setSt (AgreeOn.getV_eq (x := x) h)
  | ldI nnn => exact agreeOn_setI rfl
  | addI x =>
    have hi : s.i = t.i := BitVec.eq_of_toNat_eq (h .i (.inr (.inr rfl)))
    have hsum : Flags.addIndex s.i (s.getV x) = Flags.addIndex t.i (t.getV x) := by
      rw [hi, getV_eq_of_observe (h (.v x) (.inr (.inl rfl)))]
    rintro q (rfl | rfl)
    · exact congrArg (fun sum => BitVec.toNat sum.1) hsum
    · exact agreeOn_setV (s := s) (t := t) vf (by rw [hsum]) _ rfl
  | seImm x kk => exact agreeOn_skipIf hpc (by rw [AgreeOn.getV_eq (x := x) h])
  | sneImm x kk => exact agreeOn_skipIf hpc (by rw [AgreeOn.getV_eq (x := x) h])
  | seReg x y =>
    obtain ⟨hx, hy⟩ := AgreeOn.getV_pair_eq (x := x) (y := y) h
    exact agreeOn_skipIf hpc (by rw [hx, hy])
  | sneReg x y =>
    obtain ⟨hx, hy⟩ := AgreeOn.getV_pair_eq (x := x) (y := y) h
    exact agreeOn_skipIf hpc (by rw [hx, hy])
  | skp x =>
    have hkey := key_eq_of_observe (h (.key (lowNibble (s.getV x))) (.inr (.inr rfl)))
    exact agreeOn_skipIf hpc (by rw [hkey, getV_eq_of_observe (h (.v x) (.inr (.inl rfl)))])
  | sknp x =>
    have hkey := key_eq_of_observe (h (.key (lowNibble (s.getV x))) (.inr (.inr rfl)))
    exact agreeOn_skipIf hpc (by rw [hkey, getV_eq_of_observe (h (.v x) (.inr (.inl rfl)))])
  | bcd x =>
    exact agreeOn_storeDigits (BitVec.eq_of_toNat_eq (h .i (.inr (.inr rfl))))
      (getV_eq_of_observe (h (.v x) (.inr (.inl rfl))))
  | dump x =>
    have hv : ∀ r : Nibble, r.toNat < x.toNat + 1 → s.getV r = t.getV r := fun r hr =>
      getV_eq_of_observe (h (.v r) (.inr (.inr ⟨r, (nibble_le_iff_lt_succ r x).mpr hr, rfl⟩)))
    intro q hq
    refine agreeOn_dumpUpTo x.isLt (BitVec.eq_of_toNat_eq (h .i (.inr (.inl rfl)))) hv q (hq.imp_right ?_)
    rintro ⟨k, hk, hcell⟩
    exact ⟨k, Nat.lt_succ_of_le hk, hcell⟩
  | load x =>
    have hmem : ∀ k, k < x.toNat + 1 → s.memRead (s.i.toNat + k) = t.memRead (s.i.toNat + k) := fun k hk =>
      memRead_eq_of_observe (h (s.cell k) (.inr (.inr ⟨k, Nat.le_of_lt_succ hk, rfl⟩)))
    intro q hq
    refine agreeOn_loadUpTo x.isLt (BitVec.eq_of_toNat_eq (h .i (.inr (.inl rfl)))) hmem q (hq.imp_right ?_)
    rintro ⟨r, hr, hreg⟩
    exact ⟨r, (nibble_le_iff_lt_succ r x).mp hr, hreg⟩
  | nopUnmatched w =>
    cases hpol : s.params.unlistedPolicy with
    | nop =>
      rw [exec_nopUnmatched_of_nop hpol, exec_nopUnmatched_of_nop (hp ▸ hpol)]
      exact fun _ hq => hq.elim
    | refuse =>
      rw [exec_nopUnmatched_of_refuse hpol, exec_nopUnmatched_of_refuse (hp ▸ hpol)]
      exact rfl

/-- Settles O18. -/
theorem instructionsDependOnlyOnWhatTheyRead : Obligations.InstructionsDependOnlyOnWhatTheyRead :=
  fun _ _ _ hp h => ⟨writes_congr hp h, exec_congr hp h⟩

end Sys2Proof.Machine
